-- ==== Sys2Proof/Word.lean ====
section
/-! DEFINITION. The word types of the machine: instruction words (R50), elements and immediates (R55, R72),
byte addresses (R26) and bytes of a text given as bytes (R42). -/

namespace Sys2Proof

/-- One byte of a program text given as bytes (R42). -/
abbrev Byte := BitVec 8

/-- One 32-bit instruction word, the only instruction length there is (R50). -/
abbrev InstrWord := BitVec 32

/-- One 64-bit vector element, and the 64-bit immediate (R55, R72). -/
abbrev Element := BitVec 64

/-- A byte address: the width of the program counter and of the text's base (R26, R41). -/
abbrev Addr := BitVec 64

end Sys2Proof
end

