-- ==== Sys2Proof/Syntax.lean ====
section
/-! DEFINITION. The instructions of the opcode table: one row, EOR (immediate) (R70), and the three parts of its
13-bit immediate field (R54). -/

namespace Sys2Proof

/-- The field `imm13`, split as the decode splits it (R54): `imm13 = N : immr : imms`. -/
structure Imm13 where
  /-- `imm13[12]`, the parameter `immN`. -/
  n : BitVec 1
  /-- `imm13[11:6]`, the parameter `immr`. -/
  immr : BitVec 6
  /-- `imm13[5:0]`, the parameter `imms`. -/
  imms : BitVec 6
deriving DecidableEq, Repr

/-- The 13 bits of the field, `N : immr : imms` (R54). -/
def Imm13.bits (m : Imm13) : BitVec 13 := m.n ++ m.immr ++ m.imms

/-- The instruction set this spec admits: one instruction (R4). EON has no encoding of its own (R66, R81). -/
inductive Instr where
  /-- EOR (immediate), row `EOR` (R70): the field `imm13` and `dn = UInt(Zdn)`, source and destination at once (R53).
  The immediate field is kept as it is encoded, because a fault records the whole word (R90). -/
  | eor (imm13 : Imm13) (dn : Fin 32)
deriving DecidableEq, Repr

/-- The source operand registers of an instruction other than its destination: EOR (immediate) has none (R70, R102). -/
def Instr.otherSources : Instr → List (Fin 32)
  | .eor _ _ => []

end Sys2Proof
end

