-- ==== Sys2Proof/WellFormed.lean ====
section
/-! DEFINITION. Which instructions are well formed: the immediate field is not one of the reserved values of R59.
The check is the opcode table's own list and does not call `DecodeBitMasks`. -/

namespace Sys2Proof

/-- The eight reserved patterns of `imm13 AND 0x103F` (R59, `undefined_when` of the opcode table). -/
def Imm13.reservedPatterns : List (BitVec 13) :=
  [0x003E#13, 0x003F#13, 0x001F#13, 0x002F#13, 0x0037#13, 0x003B#13, 0x003D#13, 0x103F#13]

/-- A reserved value of `imm13` (R59): the mask `0x103F` keeps `N` and `imms` and drops `immr`. -/
def Imm13.reserved (m : Imm13) : Bool := Imm13.reservedPatterns.contains (m.bits &&& 0x103F#13)

/-- A well-formed instruction: every value of `Zdn` is valid (R53), a reserved `imm13` is not (R59). -/
def Instr.wellFormed : Instr → Bool
  | .eor m _ => !m.reserved

end Sys2Proof
end

