-- ==== Sys2Proof/Decode.lean ====
section
/-! DEFINITION. The decoder and the encoder: `DecodeBitMasks` (R56), the match of the word (R52), its fields (R53, R54),
bytes and words (R42), the canonical immediate encoding (R67), and the host's `decodeTableWord`. -/

namespace Sys2Proof

/-! ### Helper functions of R11 -/

/-- The largest set bit of `x` below position `i`, or `-1`. -/
def highestSetBitBelow {w : Nat} (x : BitVec w) : Nat → Int
  | 0 => -1
  | i + 1 => if x.getLsbD i then (i : Int) else highestSetBitBelow x i

/-- `HighestSetBit(x)` (R11). -/
def highestSetBit {w : Nat} (x : BitVec w) : Int := highestSetBitBelow x w

/-- `zext_w(Ones(k))` (R11): the low `k` of `w` bits set. -/
def lowOnes (w k : Nat) : BitVec w := (BitVec.allOnes k).setWidth w

/-- `ROR(x, r)` (R11): result bit `i` is `x[(i + r) mod w]`. -/
def ror {w : Nat} (x : BitVec w) (r : Nat) : BitVec w := x.rotateRight r

/-- `Replicate(x, 64 / w)` as a 64-bit value, for a field width `w` dividing 64 (R11, R56). -/
def replicate64 {w : Nat} (x : BitVec w) : Element := (BitVec.replicate (64 / w) x).setWidth 64

/-! ### DecodeBitMasks -/

/-- The `len` of R56: `HighestSetBit(N : NOT(imms))`. -/
def Imm13.len (m : Imm13) : Int := highestSetBit (m.n ++ ~~~m.imms)

/-- The body of `DecodeBitMasks` after its first check, for `1 <= len` (R56): `none` is its second UNDEFINED exit. -/
def bitMasksOfLen (len : Nat) (imms immr : BitVec 6) (immediate : Bool) : Option (Element × Element) :=
  let levels := lowOnes 6 len
  if immediate && imms &&& levels == levels then none
  else
    let s := (imms &&& levels).toNat
    let r := (immr &&& levels).toNat
    let welem := lowOnes (2 ^ len) (s + 1)
    let diff := (imms &&& levels) - (immr &&& levels)
    let d := diff.toNat % 2 ^ len
    let telem := lowOnes (2 ^ len) (d + 1)
    some (replicate64 (ror welem r), replicate64 telem)

/-- `DecodeBitMasks(immN, imms, immr, immediate)` at `M = 64` (R56), the pair `(wmask, tmask)`; `none` is UNDEFINED.
PRESUMED (log entry 8): the spec gives the body from general knowledge G1. -/
def decodeBitMasks64 (immN : BitVec 1) (imms immr : BitVec 6) (immediate : Bool) : Option (Element × Element) :=
  let len := highestSetBit (immN ++ ~~~imms)
  if len < 1 then none else bitMasksOfLen len.toNat imms immr immediate

/-- `(imm, -) = DecodeBitMasks(imm13<12>, imm13<5:0>, imm13<11:6>, TRUE)` (R55): the 64-bit immediate, used as it is;
`none` for a reserved `imm13` (R59, R60). -/
def Imm13.imm (m : Imm13) : Option Element := (decodeBitMasks64 m.n m.imms m.immr true).map Prod.fst

/-- `esize = 2^len` (R56, R57); meaningful for an `imm13` with `1 <= len`. -/
def Imm13.esize (m : Imm13) : Nat := 2 ^ m.len.toNat

/-- `S = UInt(imms AND levels)` (R56). -/
def Imm13.s (m : Imm13) : Nat := (m.imms &&& lowOnes 6 m.len.toNat).toNat

/-- `R = UInt(immr AND levels)` (R56). -/
def Imm13.r (m : Imm13) : Nat := (m.immr &&& lowOnes 6 m.len.toNat).toNat

/-! ### Decoding a word -/

/-- Why the decoder gives no instruction for a word. -/
inductive DecodeError where
  /-- The word does not match R52: it is refused, not called UNDEFINED (R68). -/
  | notEorImmediate
  /-- The word matches R52 and its `imm13` is reserved: UNDEFINED (R59, R60, R92). -/
  | reservedImm13
deriving DecidableEq, Repr

/-- `w AND 0xFFFC0000 = 0x05400000` (R52). -/
def isEorWord (w : InstrWord) : Bool := w &&& 0xFFFC0000#32 == 0x05400000#32

/-- The parts of `imm13`, instruction bits 17, 16:11 and 10:5 (R54). -/
def imm13OfWord (w : InstrWord) : Imm13 :=
  { n := w.extractLsb' 17 1, immr := w.extractLsb' 11 6, imms := w.extractLsb' 5 6 }

/-- `dn = UInt(Zdn)`, instruction bits 4:0 (R53). -/
def zdnOfWord (w : InstrWord) : Fin 32 := (w.extractLsb' 0 5).toFin

/-- The decoder of instruction words (R52 to R55, R59, R68): total, and rejecting by name. -/
def decodeWord (w : InstrWord) : Except DecodeError Instr :=
  if isEorWord w then
    if (imm13OfWord w).imm.isSome then .ok (.eor (imm13OfWord w) (zdnOfWord w)) else .error .reservedImm13
  else .error .notEorImmediate

/-- The encoding of an instruction, box by box as R51 draws it. -/
def encode : Instr → InstrWord
  | .eor m dn => 0b00000101#8 ++ 0#1 ++ 1#1 ++ 0b0000#4 ++ m.bits ++ BitVec.ofFin (w := 5) dn

/-! ### Words and bytes -/

/-- The word whose bytes stand at rising addresses, lowest first (R42: little-endian). PRESUMED (log entry 10). -/
def wordOfBytes (b0 b1 b2 b3 : Byte) : InstrWord := b3 ++ b2 ++ b1 ++ b0

/-- Byte `j` (0 to 3) of a word as it stands in memory (R42). -/
def byteOfWord (w : InstrWord) (j : Nat) : Byte := w.extractLsb' (8 * j) 8

/-- The four bytes of a word in memory order (R42). -/
def bytesOfWord (w : InstrWord) : List Byte := [byteOfWord w 0, byteOfWord w 1, byteOfWord w 2, byteOfWord w 3]

/-- Why the decoder of bytes gives no instruction. -/
inductive BytesError where
  /-- Fewer than the four bytes of an instruction are left (R50). -/
  | truncated
  /-- The word the bytes make is rejected by name. -/
  | word (e : DecodeError)
deriving DecidableEq, Repr

/-- The decoder of bytes: the instruction at the head of the list and the bytes after it (R42, R50). -/
def decodeBytes : List Byte → Except BytesError (Instr × List Byte)
  | b0 :: b1 :: b2 :: b3 :: rest =>
    match decodeWord (wordOfBytes b0 b1 b2 b3) with
    | .ok i => .ok (i, rest)
    | .error e => .error (.word e)
  | _ => .error .truncated

/-- A program text given as bytes (R42): its words, or `none` if the bytes are not a whole number of words. -/
def wordsOfBytes : List Byte → Option (List InstrWord)
  | [] => some []
  | b0 :: b1 :: b2 :: b3 :: rest => (wordsOfBytes rest).map (wordOfBytes b0 b1 b2 b3 :: ·)
  | _ => none

/-- The bytes of an instruction whose bits are `w`, `nbits` of them given and the others up to 32 zero. -/
def tableBytes (nbits w : Nat) : List Byte := bytesOfWord (BitVec.ofNat 32 (w % 2 ^ nbits))

/-- The host's question: the instruction this decoder reads from a table word laid out as the hardware stores it. -/
def decodeTableWord (nbits w : Nat) : Option Instr :=
  match decodeBytes (tableBytes nbits w) with
  | .ok (i, _) => some i
  | .error _ => none

/-! ### From a 64-bit value to its canonical imm13 (R67) -/

/-- Step 1 of R67: the smallest `len` in 1 to 6 whose field of `2^len` bits, repeated, is `v`. -/
def smallestLen (v : Element) : Option Nat :=
  [1, 2, 3, 4, 5, 6].find? fun len => replicate64 (v.extractLsb' 0 (2 ^ len)) == v

/-- The number of ones in `x` below position `i`. -/
def countOnesBelow {w : Nat} (x : BitVec w) : Nat → Nat
  | 0 => 0
  | i + 1 => (if x.getLsbD i then 1 else 0) + countOnesBelow x i

/-- The six-bit `imms` of R67 step 4 for a field of `2^len` bits with `S = s`. -/
def immsOf (len s : Nat) : BitVec 6 := (0b111111#6 <<< (len + 1)) ||| BitVec.ofNat 6 s

/-- Steps 2 to 4 of R67 for the field `f` of `2^len` bits. -/
def encodeField (len : Nat) (f : BitVec (2 ^ len)) : Option Imm13 :=
  let ones := countOnesBelow f (2 ^ len)
  if ones = 0 ∨ ones = 2 ^ len then none
  else
    match (List.range (2 ^ len)).find? fun r => ror (lowOnes (2 ^ len) ones) r == f with
    | none => none
    | some r => some { n := if len = 6 then 1#1 else 0#1, immr := BitVec.ofNat 6 r, imms := immsOf len (ones - 1) }

/-- The canonical `imm13` of a 64-bit value (R67); `none` where the value has no encoding. PRESUMED (log entry 19): which of
several encodings a tool emits is the spec's decision D18. -/
def encodeBitMask (v : Element) : Option Imm13 :=
  match smallestLen v with
  | none => none
  | some len => encodeField len (v.extractLsb' 0 (2 ^ len))

/-- `imm13` with the ignored bits of `immr` cleared (R57, R62, R67). -/
def Imm13.canonical (m : Imm13) : Imm13 := { m with immr := m.immr &&& lowOnes 6 m.len.toNat }

end Sys2Proof
end

