-- ==== Sys2Proof/Config.lean ====
section
/-! DEFINITION. What is fixed for a run: the implementation parameters `VL`, `have_sve`, `sve_enabled` (R5, R6, R7),
the program text (R41), and the free launch values of the vector registers (R33). -/

namespace Sys2Proof

/-- The implementation parameters of R5, R6 and R7; R8 names no other.
They are plain data of the launch state and no step changes them. DESIGN CHOICE (log entries 7, 14 and 15). -/
structure Config where
  /-- `VL = 128 * k` with `1 <= k <= 16`; this field is `k - 1`, so that every value of it meets R5. -/
  kPred : Fin 16
  /-- The answer of `HaveSVE()` (R6). -/
  haveSve : Bool
  /-- Whether the call `CheckSVEEnabled()` returns normally (R7). -/
  sveEnabled : Bool
deriving DecidableEq, Repr

/-- The `k` of R5, `1 <= k <= 16`. -/
def Config.k (c : Config) : Nat := c.kPred.val + 1

/-- The vector length in bits, `VL = 128 * k` (R5). -/
def Config.vl (c : Config) : Nat := 128 * c.k

/-- `integer elements = VL DIV 64` (R72). -/
def Config.elements (c : Config) : Nat := c.vl / 64

/-- The program text of R41: word `i` of `prog` stands at byte address `base + 4 * i`.
It is configuration: no admitted instruction writes it (R47). -/
structure ProgramText where
  base : Addr
  prog : List InstrWord
deriving DecidableEq, Repr

/-- The constraints R41 puts on a program text: `base[1:0] = 00` and `base + 4 * n <= 2^64`.
The launch and the step do not ask for them (log entry 23); the statements about runs have them as a premise. -/
def ProgramText.wf (t : ProgramText) : Bool :=
  t.base.extractLsb' 0 2 == 0#2 && decide (t.base.toNat + 4 * t.prog.length ≤ 2 ^ 64)

/-- FREE VALUE (log entry 1): the value vector register `n` holds at launch, at vector length `vl`.
R33: "each is a free `bits(VL)` value of the launch state", "not zero, not unwritten; a read never faults".
It has no body, so no proof can rest on it. -/
opaque Config.launchZ (vl : Nat) (n : Fin 32) : BitVec vl

end Sys2Proof
end

