-- ==== Sys2Proof/Machine/State.lean ====
section
/-! DEFINITION. The state of the machine as plain data (R20), the reasons a step stops, and the launch state (R33). -/

namespace Sys2Proof.Machine

/-- The faults of the machine, with what each records (R90). A fault is precise and terminal (R95):
it changes no register, no pc and no text. -/
inductive Fault where
  /-- UNDEFINED (R91, R92): raised by EOR (immediate) when `have_sve` is false, and by the decode of a word that matches
  R52 and whose `imm13` is reserved; records the word and its address. SAFE: the chip enters a handler, the model stops. -/
  | undefined (w : InstrWord) (pc : Addr)
  /-- The check `CheckSVEEnabled()` does not pass (R93): raised by EOR (immediate); records its address.
  SAFE: the chip enters a handler, the model stops. -/
  | sveAccessTrap (pc : Addr)
deriving DecidableEq, Repr

/-- The refusals of the machine: it has no meaning to give. -/
inductive Refusal where
  /-- An instruction of the table whose arm of `exec` has no meaning yet; no arm is left so. SAFE. -/
  | notModelled (mnemonic : String)
  /-- The fetched word is not EOR (immediate) (R68): raised by the step. SAFE: on the chip it is some other instruction. -/
  | notEorImmediate
  /-- The run has ended normally, `pc = base + 4 * n` (R106): there is no further step.
  Raised by the step. SAFE: the chip goes on with whatever follows the text. -/
  | runEnded
  /-- The pc stands at no word of the text and not at its end; no run from the launch of a text that meets R41 reaches this.
  Raised by the step. SAFE: the model stops. -/
  | pcOutsideText
deriving DecidableEq, Repr

/-- The component `outcome` of R20. -/
inductive RunOutcome where
  | running
  | fault (f : Fault)
  | refused (r : Refusal)
deriving DecidableEq, Repr

/-- The machine's state: the tuple of R20, `z`, `pc` and `outcome`, with the configuration R20 lists beside it (log entry 7),
and nothing else. The flags and PSTATE.DIT are not held (R27, R28; log entry 5). -/
structure State where
  /-- `VL`, `have_sve`, `sve_enabled` (R5 to R7), constant for a run. -/
  cfg : Config
  /-- The program text (R41), constant for a run. -/
  text : ProgramText
  /-- `Z[0] .. Z[31]`, each exactly `VL` bits (R21, R24). -/
  z : Vector (BitVec cfg.vl) 32
  /-- The byte address of the instruction being executed (R26). -/
  pc : Addr
  /-- `Running`, or the fault or refusal the run stopped with (R20, R95). -/
  outcome : RunOutcome
deriving DecidableEq, Repr

/-- The launch state of R33 and R100 for a configuration, a text and register values: every row of R33's table that the
model holds. DESIGN CHOICE (log entry 23): it takes a text that breaks R41 too, which the spec does not have. -/
def State.launch (cfg : Config) (text : ProgramText) (z : Vector (BitVec cfg.vl) 32) : State :=
  { cfg := cfg, text := text, z := z, pc := text.base, outcome := .running }

/-- The configuration of `State.reset`; DESIGN CHOICE (log entry 2): `VL = 128`, SVE present and its access enabled. -/
def resetConfig : Config := { kPred := 0, haveSve := true, sveEnabled := true }

/-- The machine at the start of a run (R33, R100): the registers hold free values (log entry 1), the pc is the base,
the outcome is `Running`; the configuration, the base and the empty text are log entries 2 and 3. -/
def State.reset : State :=
  State.launch resetConfig { base := 0, prog := [] } (Vector.ofFn fun n => Config.launchZ resetConfig.vl n)

end Sys2Proof.Machine
end

