-- ==== Sys2Proof/Machine/Ops.lean ====
section
/-! DEFINITION. The named operations over the state: the `Z[]` accessor (R12), the pc (R26, R74), fetch and bytes of the
text (R41, R42), raising an exception (R95), and recording an outcome (R20, R106). -/

namespace Sys2Proof.Machine

/-- What a step or a meaning answers. -/
abbrev Answer := Host.Outcome State Fault Refusal

/-- `Z[n]`: all `VL` bits of vector register `n` (R12). PRESUMED (log entries 15 and 17). -/
def State.readZ (s : State) (n : Fin 32) : BitVec s.cfg.vl := s.z[n.val]

/-- `Z[n] <- v`: replaces all `VL` bits of vector register `n` and nothing else (R12). No register is hardwired (R21). -/
def State.writeZ (s : State) (n : Fin 32) (v : BitVec s.cfg.vl) : State := { s with z := s.z.set n.val v }

/-- `pc <- pc + 4` modulo `2^64` (R26, R74). PRESUMED (log entry 9): the spec's decision D6. -/
def State.advancePc (s : State) : State := { s with pc := s.pc + 4#64 }

/-- Taking an exception (R95, R96): precise and terminal. Nothing of the state changes, nothing is saved, no handler is
entered; the machine stops with the fault, which `State.settle` records in `outcome`. DESIGN CHOICE (log entry 11), as the spec's
decisions D4 and D5. -/
def State.raise (_s : State) (f : Fault) : Answer := .fault f

/-- The offset in bytes of the pc from the base of the text, modulo `2^64` (R41). -/
def State.textOffset (s : State) : Nat := (s.pc - s.text.base).toNat

/-- What the fetch at the pc finds (R41, R106). -/
inductive Fetched where
  /-- The pc is `base + 4 * n`: the run has ended. -/
  | ended
  /-- The word `prog[i]`, the pc being `base + 4 * i`. -/
  | word (w : InstrWord)
  /-- The pc is neither. -/
  | outside
deriving DecidableEq, Repr

/-- Fetch at the pc; the end of the text is tested first, as R106 does (log entry 4 for the top of the address space).
DESIGN CHOICE (log entry 23): only the offset from the base is looked at, so the words of a text that breaks R41 (a base that
is no multiple of 4, or an end past `2^64`) are fetched like those of any other, at a misaligned pc too. -/
def State.fetch (s : State) : Fetched :=
  if s.textOffset = 4 * s.text.prog.length % 2 ^ 64 then .ended
  else if s.textOffset % 4 = 0 then
    match s.text.prog[s.textOffset / 4]? with
    | some w => .word w
    | none => .outside
  else .outside

/-- The byte of the program text at address `a` (R41, R42); `none` at an address the text does not cover. The text is the
only memory there is (R32, R45). -/
def State.textByte (s : State) (a : Addr) : Option Byte :=
  let off := (a - s.text.base).toNat
  (s.text.prog[off / 4]?).map fun w => byteOfWord w (off % 4)

/-- The text with `w` standing at `pc`: in the place of a word of it, or after its last word; and where neither can be, the
text of that one word at `pc`. DESIGN CHOICE (log entry 23): the text it makes breaks R41 where the pc is misaligned, or where
the word is put after a text that ends at `2^64`. -/
def placeText (t : ProgramText) (pc : Addr) (w : InstrWord) : ProgramText :=
  let off := (pc - t.base).toNat
  if off % 4 = 0 ∧ off / 4 < t.prog.length ∧ t.prog.length < 2 ^ 62 then { t with prog := t.prog.set (off / 4) w }
  else if off = 4 * t.prog.length then { t with prog := t.prog ++ [w] }
  else { base := pc, prog := [w] }

/-- The state with the word `w` placed where the next fetch reads it, and running: loading a program (log entry 3). -/
def State.placeWord (s : State) (w : InstrWord) : State :=
  { s with text := placeText s.text s.pc w, outcome := .running }

/-- The reason of a refusal as the spec spells it (R68, R106, 90_conflicts C7). -/
def Refusal.reason : Refusal → String
  | .notEorImmediate => "not EOR (immediate)"
  | .runEnded => "the run has ended"
  | .pcOutsideText => "the pc is outside the program text"
  | _ => "not modelled"

/-- The state a step leaves, in the terms of R20: a fault or a refusal changes `outcome` and nothing else (R68, R95); the
end of the run changes nothing (R106). DESIGN CHOICE (log entry 6). -/
def State.settle (s : State) : Answer → State
  | .next t => t
  | .fault f => { s with outcome := .fault f }
  | .refused .runEnded => s
  | .refused r => { s with outcome := .refused r }

end Sys2Proof.Machine
end

