-- ==== Sys2Proof/Machine/Operands.lean ====
section
/-! DEFINITION. Operand forms: the element accessor `Elem[]` (R12), the element loop of the operation (R72) and
`Replicate(imm, VL / 64)` (R11, R83). -/

namespace Sys2Proof.Machine

/-- `Elem[v, e, size]`: the slice `v[(e+1)*size - 1 : e*size]` (R12). PRESUMED (log entry 17). -/
def elemRead {w : Nat} (v : BitVec w) (e size : Nat) : BitVec size := v.extractLsb' (e * size) size

/-- `Elem[v, e, size] <- x`: replaces exactly that slice of `v` (R12). -/
def elemWrite {w : Nat} (v : BitVec w) (e size : Nat) (x : BitVec size) : BitVec w :=
  (v &&& ~~~(lowOnes w size <<< (e * size))) ||| (x.setWidth w <<< (e * size))

/-- One iteration of the loop of R72. -/
def eorElement {w : Nat} (operand : BitVec w) (imm : Element) (result : BitVec w) (e : Nat) : BitVec w :=
  elemWrite result e 64 (elemRead operand e 64 ^^^ imm)

/-- `for e = 0 to elements-1` over the local variable `result` (R72), which starts as `result0`. -/
def eorLoop {w : Nat} (operand : BitVec w) (imm : Element) (elements : Nat) (result0 : BitVec w) : BitVec w :=
  (List.range elements).foldl (eorElement operand imm) result0

/-- The value the operation assigns to `Z[dn]`: the loop over all `VL DIV 64` elements (R72). The local `result` starts
unassigned; every bit of it is assigned, so the zero written here is not seen. DEDUCED (log entry 18). -/
def eorVector (cfg : Config) (operand : BitVec cfg.vl) (imm : Element) : BitVec cfg.vl :=
  eorLoop operand imm cfg.elements 0

/-- Element `e` of vector register `n`, bits `[64*e + 63 : 64*e]` (R22). -/
def State.elem (s : State) (n : Fin 32) (e : Nat) : Element := elemRead (s.readZ n) e 64

/-- Bit `b` of vector register `n` (R80). -/
def State.zBit (s : State) (n : Fin 32) (b : Nat) : Bool := (s.readZ n).getLsbD b

/-- `Replicate(imm, VL / 64)` as a `VL`-bit value (R11, R83). -/
def replicateVl (cfg : Config) (imm : Element) : BitVec cfg.vl := (BitVec.replicate cfg.elements imm).setWidth cfg.vl

end Sys2Proof.Machine
end

