-- ==== Sys2Proof/Machine/Cycle.lean ====
section
/-! DEFINITION. One step of a run (R106) around a meaning of instructions, the loading of a word for the host, and a run in
the spec's terms. -/

namespace Sys2Proof.Machine

/-- What a fetched word does (R106): a word that does not match R52 is refused (R68), a reserved `imm13` is UNDEFINED (R92),
and an instruction runs by `run`. -/
def runWord (run : Instr → State → Answer) (s : State) (w : InstrWord) : Answer :=
  match decodeWord w with
  | .ok i => run i s
  | .error .reservedImm13 => s.raise (.undefined w s.pc)
  | .error .notEorImmediate => .refused .notEorImmediate

/-- One step of a running machine (R106). -/
def runFetched (run : Instr → State → Answer) (s : State) : Answer :=
  match s.fetch with
  | .ended => .refused .runEnded
  | .word w => runWord run s w
  | .outside => .refused .pcOutsideText

/-- One step (R106): if the outcome is not `Running` there is no step, and the recorded stop is answered again. -/
def cycle (run : Instr → State → Answer) (s : State) : Answer :=
  match s.outcome with
  | .running => runFetched run s
  | .fault f => .fault f
  | .refused r => .refused r

/-- The word the host's bits stand for: `nbits` of them given, the others zero, stored as the hardware stores them. -/
def tableWord (nbits w : Nat) : InstrWord :=
  match tableBytes nbits w with
  | [b0, b1, b2, b3] => wordOfBytes b0 b1 b2 b3
  | _ => 0

/-- The state with a table word placed where the next step fetches. -/
def State.placeTableWord (s : State) (nbits w : Nat) : State := s.placeWord (tableWord nbits w)

end Sys2Proof.Machine
end

