-- ==== Sys2Proof/Machine/EorImmediate.lean ====
section
/-! DEFINITION. The family "SVE bitwise exclusive OR with immediate": the meaning of EOR (immediate) (R70 to R76). -/

namespace Sys2Proof.Machine

/-- The decode stage (R55, R71): `if !HaveSVE() then UNDEFINED`, then `DecodeBitMasks`, whose UNDEFINED exits make the
instruction UNDEFINED (R60, R92). It reads no register and writes no state.
The word a fault records is the instruction's encoding, which is the fetched word (log entry 21). -/
def eorDecodeStage (imm13 : Imm13) (dn : Fin 32) (s : State) : Except Fault Element :=
  if s.cfg.haveSve then
    match imm13.imm with
    | some imm => .ok imm
    | none => .error (.undefined (encode (.eor imm13 dn)) s.pc)
  else .error (.undefined (encode (.eor imm13 dn)) s.pc)

/-- The state of a completed EOR (immediate) (R72, R73, R74): the element loop over `Z[dn]`, and `pc + 4`;
no flag is read or written (R75). -/
def State.eorCompleted (s : State) (dn : Fin 32) (imm : Element) : State :=
  (s.writeZ dn (eorVector s.cfg (s.readZ dn) imm)).advancePc

/-- The execute stage (R72): `CheckSVEEnabled()` first, before any register is read (R93). -/
def eorExecuteStage (dn : Fin 32) (imm : Element) (s : State) : Answer :=
  if s.cfg.sveEnabled then .next (s.eorCompleted dn imm) else s.raise (.sveAccessTrap s.pc)

/-- EOR (immediate): the decode stage, then the execute stage; so UNDEFINED goes before the trap (R76, R94).
PRESUMED (log entry 16): the order of the stages is general knowledge G13. -/
def execEor (imm13 : Imm13) (dn : Fin 32) (s : State) : Answer :=
  match eorDecodeStage imm13 dn s with
  | .ok imm => eorExecuteStage dn imm s
  | .error f => s.raise f

end Sys2Proof.Machine
end

