-- ==== Sys2Proof/Machine/Step.lean ====
section
/-! DEFINITION. The step of the machine and the host's placing of a word. -/

namespace Sys2Proof.Machine

/-- One step of the machine (R106). -/
def step (s : State) : Host.Outcome State Fault Refusal := cycle exec s

/-- The state with the instruction whose bits are `w` where `step` fetches next. -/
def State.withFetchWord (s : State) (nbits w : Nat) : State := s.placeTableWord nbits w

end Sys2Proof.Machine
end

