-- ==== Sys2Proof/Machine/Assembler.lean ====
section
/-! DEFINITION. The assembler's view of the instruction: the size specifier table (R61), the template (R64), the relation
between the text and the immediate (R65), and the pseudo-instruction EON (R66, R81). No meaning depends on this file (R77). -/

namespace Sys2Proof.Machine

/-- The size specifier `<T>` (R61, R64). -/
inductive SizeSpec where
  | b
  | h
  | s
  | d
deriving DecidableEq, Repr

/-- `tbits`: 8, 16, 32, 64 for B, H, S, D (R65). -/
def SizeSpec.tbits : SizeSpec → Nat
  | .b => 8
  | .h => 16
  | .s => 32
  | .d => 64

/-- The letter of the assembler text. -/
def SizeSpec.letter : SizeSpec → String
  | .b => "B"
  | .h => "H"
  | .s => "S"
  | .d => "D"

/-- One row of the table of R61: a pattern over `imm13<12>:imm13<5:0>`, a clear bit of `mask` being an `x`. -/
structure SizeRow where
  mask : BitVec 7
  pattern : BitVec 7
  spec : Option SizeSpec
deriving DecidableEq, Repr

/-- The table of R61, row by row; `none` is RESERVED. -/
def sizeTable : List SizeRow :=
  [⟨0b1100000#7, 0b0000000#7, some .s⟩, ⟨0b1110000#7, 0b0100000#7, some .h⟩, ⟨0b1111000#7, 0b0110000#7, some .b⟩,
   ⟨0b1111100#7, 0b0111000#7, some .b⟩, ⟨0b1111110#7, 0b0111100#7, some .b⟩, ⟨0b1111111#7, 0b0111110#7, none⟩,
   ⟨0b1111111#7, 0b0111111#7, none⟩, ⟨0b1000000#7, 0b1000000#7, some .d⟩]

/-- The rows of the table an `imm13` falls under; there is always exactly one. -/
def sizeRowsOf (m : Imm13) : List SizeRow := sizeTable.filter fun r => (m.n ++ m.imms) &&& r.mask == r.pattern

/-- The size specifier of an `imm13` (R61); `none` is RESERVED. It is a property of the text only. -/
def sizeSpecOf (m : Imm13) : Option SizeSpec := (sizeRowsOf m).head?.bind SizeRow.spec

/-- The operands of the template `EOR <Zdn>.<T>, <Zdn>.<T>, #<const>` (R64), each occurrence by itself. -/
structure EorText where
  zd : Fin 32
  td : SizeSpec
  zn : Fin 32
  tn : SizeSpec
  const : Nat
deriving DecidableEq, Repr

/-- Both occurrences of the register are the same register with the same size, and the constant has `tbits` bits (R64, R65). -/
def EorText.admitted (x : EorText) : Bool :=
  x.zd == x.zn && x.td == x.tn && decide (x.const < 2 ^ x.td.tbits)

/-- `V = Replicate(<const>, 64 / tbits)` (R65). -/
def EorText.value (x : EorText) : Element := replicate64 (BitVec.ofNat x.td.tbits x.const)

/-- Assembling `EOR` (R65, R67): the canonical encoding of the value, or nothing. -/
def assembleEor (x : EorText) : Option Instr :=
  if x.admitted then (encodeBitMask x.value).map fun m => Instr.eor m x.zd else none

/-- The text of the `EOR` that `EON` stands for: the constant `-<const> - 1` modulo `2^tbits` (R66). PRESUMED (log
entry 19): the expansion is general knowledge G9. -/
def EorText.ofEon (x : EorText) : EorText := { x with const := (-(BitVec.ofNat x.td.tbits x.const) - 1).toNat }

/-- Assembling `EON` (R66, R81). -/
def assembleEon (x : EorText) : Option Instr := if x.admitted then assembleEor x.ofEon else none

/-- Disassembling (R65): `<T>` from the table and `<const> = imm[tbits-1:0]`; nothing for a reserved `imm13`. -/
def disassemble : Instr → Option EorText
  | .eor m dn =>
    match sizeSpecOf m, m.imm with
    | some t, some v => some { zd := dn, td := t, zn := dn, tn := t, const := (v.extractLsb' 0 t.tbits).toNat }
    | _, _ => none

/-- A register operand as written, `Z<dn>.<T>` (R64). -/
def renderRegister (n : Fin 32) (t : SizeSpec) : String := "Z" ++ Nat.repr n.val ++ "." ++ t.letter

/-- The text of the template with hexadecimal constant (R64). -/
def EorText.render (x : EorText) : String :=
  "EOR " ++ renderRegister x.zd x.td ++ ", " ++ renderRegister x.zn x.tn ++ ", #0x" ++ String.ofList (Nat.toDigits 16 x.const)

end Sys2Proof.Machine
end

