-- ==== Sys2Proof/Machine/Run.lean ====
section
/-! DEFINITION. A run in the spec's own terms (R20, R106): the transition that records a fault or a refusal in `outcome`. -/

namespace Sys2Proof.Machine

/-- One transition of R106 on the tuple of R20: a step, and where the step stops, its reason recorded in `outcome`. -/
def State.advance (s : State) : State := s.settle (step s)

/-- `k` transitions. -/
def State.advances (s : State) : Nat → State
  | 0 => s
  | k + 1 => (s.advance).advances k

/-- The run has ended normally (R106): still `Running`, and the pc at the end of the text. -/
def State.final (s : State) : Bool := s.outcome == .running && s.fetch == .ended

/-- The run is over (R106): final, faulted or refused. -/
def State.over (s : State) : Bool := s.final || s.outcome != .running

end Sys2Proof.Machine
end

