-- ==== Sys2Proof/Safety.lean ====
section
/-! DEFINITION. What claims are stated in: when an instruction has its effect (R101), which states a run reaches (R41, R43),
which steps are safe, and what software must respect before this instruction (R102). -/

namespace Sys2Proof.Machine

/-- The premises of a claim that the instruction computes its result (R101). -/
abbrev State.sveReady (s : State) : Prop := s.cfg.haveSve = true ∧ s.cfg.sveEnabled = true

/-- The text meets R41 and the pc stands at a word of it or at its end (R41, R43): what every run from a launch keeps. -/
abbrev State.inText (s : State) : Prop :=
  s.text.wf = true ∧ s.textOffset % 4 = 0 ∧ s.textOffset / 4 ≤ s.text.prog.length

/-- A step from here answers a next state: no fault, no refusal. -/
abbrev State.stepsSafely (s : State) : Prop := ∃ t, step s = .next t

/-- A MOVPRFX standing before an instruction, as far as R102 speaks of it. It is no instruction of this model (R4), and the step
never asks for one (R31): DESIGN CHOICE (log entry 13). -/
structure Movprfx where
  predicated : Bool
  zd : Fin 32
deriving DecidableEq, Repr

/-- The three requirements of R102 on a MOVPRFX immediately before an instruction: unpredicated, the same destination, and
that destination no other source operand of the instruction. -/
def movprfxConforms (p : Movprfx) : Instr → Bool
  | .eor m dn => !p.predicated && p.zd == dn && !((Instr.eor m dn).otherSources.contains p.zd)

/-- The words of the unpredicated MOVPRFX (R68, by general knowledge G10): this model refuses them. -/
def isMovprfxWord (w : InstrWord) : Bool := w &&& 0xFFFFFC00#32 == 0x0420BC00#32

end Sys2Proof.Machine
end

