-- ==== Sys2Proof/Certificates/Slice0/Obligations.lean ====
section
/-! DEFINITION. The statements for the provers. Every statement quantifies over all states, so over every configuration
(`VL`, `have_sve`, `sve_enabled`), every text and every value of every register. -/

open Sys2Proof Sys2Proof.Machine

/-! ### Encoding and decoding -/

/-- R51: the boxes of the encoding diagram, bit by bit, and the two fields. -/
def Obligations.EncodingBoxesAsDrawn : Prop :=
  ∀ (m : Imm13) (dn : Fin 32),
    (encode (.eor m dn)).extractLsb' 24 8 = 0b00000101#8 ∧
    (encode (.eor m dn)).extractLsb' 23 1 = 0#1 ∧
    (encode (.eor m dn)).extractLsb' 22 1 = 1#1 ∧
    (encode (.eor m dn)).extractLsb' 18 4 = 0b0000#4 ∧
    (encode (.eor m dn)).extractLsb' 5 13 = m.bits ∧
    ((encode (.eor m dn)).extractLsb' 0 5).toNat = dn.val

/-- The derived sentence of R52: the mask test, the fourteen fixed bits and the range of words say the same. -/
def Obligations.MatchMaskAndRangeAgree : Prop :=
  ∀ w : InstrWord,
    (isEorWord w = true ↔ w.extractLsb' 18 14 = 0b00000101010000#14) ∧
    (isEorWord w = true ↔ 0x05400000 ≤ w.toNat ∧ w.toNat ≤ 0x0543FFFF)

/-- R54: `imm13 = w[17:5]` and its three parts `N`, `immr`, `imms`, passed to `DecodeBitMasks` as its first, third and
second argument. -/
def Obligations.ImmediateFieldSplit : Prop :=
  ∀ w : InstrWord,
    (imm13OfWord w).bits = w.extractLsb' 5 13 ∧
    (imm13OfWord w).n = (w.extractLsb' 5 13).extractLsb' 12 1 ∧
    (imm13OfWord w).n = w.extractLsb' 17 1 ∧
    (imm13OfWord w).immr = (w.extractLsb' 5 13).extractLsb' 6 6 ∧
    (imm13OfWord w).immr = w.extractLsb' 11 6 ∧
    (imm13OfWord w).imms = (w.extractLsb' 5 13).extractLsb' 0 6 ∧
    (imm13OfWord w).imms = w.extractLsb' 5 6 ∧
    (imm13OfWord w).imm =
      (decodeBitMasks64 (w.extractLsb' 17 1) (w.extractLsb' 5 6) (w.extractLsb' 11 6) true).map Prod.fst

/-- Tier 3 (a): decoding an encoded well-formed instruction gives it back, with every value of both fields. It needs the
opcode table's list of reserved values and `DecodeBitMasks` to agree (30_encoding, sections 1 to 3). -/
def Obligations.DecodeOfEncode : Prop :=
  ∀ i : Instr, i.wellFormed = true → decodeWord (encode i) = .ok i

/-- The other direction: a word the decoder accepts is the encoding of the well-formed instruction it gives. -/
def Obligations.EncodeOfDecoded : Prop :=
  ∀ (w : InstrWord) (i : Instr), decodeWord w = .ok i → encode i = w ∧ i.wellFormed = true

/-- The derived sentence of R63: a word in the match is a valid EOR (immediate) or UNDEFINED; R68 for the others. -/
def Obligations.EveryWordDecodesByName : Prop :=
  ∀ w : InstrWord, decodeWord w =
    if isEorWord w = false then .error .notEorImmediate
    else if (imm13OfWord w).reserved = true then .error .reservedImm13
    else .ok (.eor (imm13OfWord w) (zdnOfWord w))

/-- Five words written out from the encoding and the worked decodes of R69: the operands and the immediates. A sanity check. -/
def Obligations.WorkedDecodesRead : Prop :=
  decodeWord 0x05402EA0#32 = .ok (.eor ⟨0#1, 0b000101#6, 0b110101#6⟩ 0) ∧
  (imm13OfWord 0x05402EA0#32).imm = some 0xF9F9F9F9F9F9F9F9#64 ∧
  decodeWord 0x0543FFDF#32 = .ok (.eor ⟨1#1, 0b111111#6, 0b111110#6⟩ 31) ∧
  (imm13OfWord 0x0543FFDF#32).imm = some 0xFFFFFFFFFFFFFFFE#64 ∧
  decodeWord 0x054004E3#32 = .ok (.eor ⟨0#1, 0b000000#6, 0b100111#6⟩ 3) ∧
  (imm13OfWord 0x054004E3#32).imm = some 0x00FF00FF00FF00FF#64 ∧
  decodeWord 0x054007C0#32 = .error .reservedImm13 ∧
  decodeWord 0x05440000#32 = .error .notEorImmediate

/-- R42 (decision D7): little-endian words, and the decoder of bytes on the bytes of an instruction. -/
def Obligations.BytesAreLittleEndian : Prop :=
  (∀ b0 b1 b2 b3 : Byte,
    (wordOfBytes b0 b1 b2 b3).toNat = b0.toNat + 2 ^ 8 * b1.toNat + 2 ^ 16 * b2.toNat + 2 ^ 24 * b3.toNat ∧
    bytesOfWord (wordOfBytes b0 b1 b2 b3) = [b0, b1, b2, b3]) ∧
  ∀ (i : Instr) (rest : List Byte), i.wellFormed = true →
    decodeBytes (bytesOfWord (encode i) ++ rest) = .ok (i, rest)

/-! ### The immediate -/

/-- R59 (with the six patterns of general knowledge G1, conflict C1): the reserved values of the opcode table are exactly
those for which `DecodeBitMasks` is UNDEFINED. -/
def Obligations.ReservedExactlyUndefined : Prop :=
  ∀ m : Imm13, m.reserved = true ↔ m.imm = none

/-- The derived table of R57: the element size from `N : imms`. -/
def Obligations.ElementSizeTable : Prop :=
  ∀ m : Imm13,
    (m.n = 1#1 → m.len = 6 ∧ m.esize = 64) ∧
    (m.n = 0#1 →
      (m.imms &&& 0b100000#6 = 0b000000#6 → m.len = 5 ∧ m.esize = 32) ∧
      (m.imms &&& 0b110000#6 = 0b100000#6 → m.len = 4 ∧ m.esize = 16) ∧
      (m.imms &&& 0b111000#6 = 0b110000#6 → m.len = 3 ∧ m.esize = 8) ∧
      (m.imms &&& 0b111100#6 = 0b111000#6 → m.len = 2 ∧ m.esize = 4) ∧
      (m.imms &&& 0b111110#6 = 0b111100#6 → m.len = 1 ∧ m.esize = 2) ∧
      (m.imms = 0b111110#6 → m.len = 0) ∧
      (m.imms = 0b111111#6 → m.len = -1))

/-- The derived closed form of R58: bit `i` of the immediate is 1 exactly when `((i mod esize) + R) mod esize <= S`, and
`1 <= S + 1 <= esize - 1`. -/
def Obligations.ImmediateClosedForm : Prop :=
  ∀ (m : Imm13) (imm : Element), m.imm = some imm →
    m.s + 1 < m.esize ∧ m.r < m.esize ∧
    ∀ i, i < 64 → (imm.getLsbD i = true ↔ (i % m.esize + m.r) % m.esize ≤ m.s)

/-- R58, its last derived sentence: the immediate is never all zeros and never all ones. -/
def Obligations.ImmediateNeverZeroNorOnes : Prop :=
  ∀ (m : Imm13) (imm : Element), m.imm = some imm → imm ≠ 0#64 ∧ imm ≠ BitVec.allOnes 64

/-- The derived sentences of R62: the bits of `immr` above the element size do not affect the immediate and do not make the
encoding reserved. -/
def Obligations.HighImmrBitsIgnored : Prop :=
  ∀ m m' : Imm13, m.n = m'.n → m.imms = m'.imms →
    m.immr &&& lowOnes 6 m.len.toNat = m'.immr &&& lowOnes 6 m'.len.toNat →
    m.imm = m'.imm ∧ m.reserved = m'.reserved

/-- R67 (decision D18): the canonical encoding of a value decodes to it, is canonical, and is what every encoding of the
value reduces to. -/
def Obligations.CanonicalEncodingInverse : Prop :=
  (∀ (m : Imm13) (imm : Element), m.imm = some imm → encodeBitMask imm = some m.canonical) ∧
  ∀ (v : Element) (m : Imm13), encodeBitMask v = some m → m.imm = some v ∧ m.canonical = m

/-! ### The assembler's view -/

/-- R61: the size specifier table, row by row; `<T>` is no input of the operation: with SVE present, and whatever the table
gives for the field, the instruction is the execute stage on its immediate, which is given no `<T>`; and a disassembled text has its `<T>` from the table. -/
def Obligations.SizeSpecifierTable : Prop :=
  (∀ m : Imm13,
    (m.n = 0#1 →
      (m.imms &&& 0b100000#6 = 0b000000#6 → sizeSpecOf m = some .s) ∧
      (m.imms &&& 0b110000#6 = 0b100000#6 → sizeSpecOf m = some .h) ∧
      (m.imms &&& 0b111000#6 = 0b110000#6 → sizeSpecOf m = some .b) ∧
      (m.imms &&& 0b111100#6 = 0b111000#6 → sizeSpecOf m = some .b) ∧
      (m.imms &&& 0b111110#6 = 0b111100#6 → sizeSpecOf m = some .b) ∧
      (m.imms = 0b111110#6 → sizeSpecOf m = none) ∧
      (m.imms = 0b111111#6 → sizeSpecOf m = none)) ∧
    (m.n = 1#1 → sizeSpecOf m = some .d)) ∧
  (∀ (m : Imm13) (imm : Element) (dn : Fin 32) (s : State), m.imm = some imm → s.cfg.haveSve = true →
    exec (.eor m dn) s = eorExecuteStage dn imm s) ∧
  ∀ (m : Imm13) (dn : Fin 32) (x : EorText), disassemble (.eor m dn) = some x →
    sizeSpecOf m = some x.td ∧ sizeSpecOf m = some x.tn

/-- The derived sentences of R65: the text of a well-formed instruction has `<const>` of `tbits` bits whose replication is the
immediate, and it assembles to the canonical encoding (R67, D18) on the same register. -/
def Obligations.DisassembleThenAssemble : Prop :=
  ∀ (m : Imm13) (dn : Fin 32), (Instr.eor m dn).wellFormed = true →
    ∃ x, disassemble (.eor m dn) = some x ∧ sizeSpecOf m = some x.td ∧ x.admitted = true ∧ m.imm = some x.value ∧
      assembleEor x = some (.eor m.canonical dn)

/-- R66 and R81 (general knowledge G9): EON is EOR with the inverted constant, and accepts exactly the constants EOR does. -/
def Obligations.EonInvertsConstant : Prop :=
  ∀ x : EorText, x.admitted = true →
    ((∃ i, assembleEon x = some i) ↔ ∃ j, assembleEor x = some j) ∧
    ∀ m dn, assembleEon x = some (.eor m dn) → dn = x.zd ∧ m.imm = some (~~~x.value)

/-! ### The step -/

/-- A step of a running machine whose fetched word decodes is exec of that instruction, and nothing around it (R106). -/
def Obligations.StepRunsDecodedInstruction : Prop :=
  ∀ (s : State) (w : InstrWord) (i : Instr), s.outcome = .running → s.fetch = .word w → decodeWord w = .ok i →
    step s = exec i s

/-- The steps that run no instruction (R106, decision D13; the two refusals' names are this model's, log entry 4).
R106 says that a stopped machine takes no step; that it answers its recorded stop again is this model's, log entry 6. -/
def Obligations.StepWithoutInstruction : Prop :=
  ∀ s : State,
    (s.outcome = .running → s.fetch = .ended → step s = .refused .runEnded) ∧
    (s.outcome = .running → s.fetch = .outside → step s = .refused .pcOutsideText) ∧
    (∀ f, s.outcome = .fault f → step s = .fault f) ∧
    (∀ r, s.outcome = .refused r → step s = .refused r)

/-- The word placed for the host is the one the next step runs, in every state (log entry 3), on a text that
breaks R41 too (log entry 23). -/
def Obligations.PlacedWordRunsNext : Prop :=
  ∀ (s : State) (nbits w : Nat) (i : Instr), decodeTableWord nbits w = some i →
    step (s.withFetchWord nbits w) = exec i (s.withFetchWord nbits w)

/-- R41 (decision D7): word `i` of the text stands at `base + 4 * i`, byte by byte as R42 says. It holds of a text that
breaks R41 too, which is the model's choice (log entry 23). -/
def Obligations.FetchReadsText : Prop :=
  ∀ (s : State) (i : Nat) (w : InstrWord), s.text.prog.length < 2 ^ 62 → s.text.prog[i]? = some w →
    s.pc = s.text.base + BitVec.ofNat 64 (4 * i) →
    s.fetch = .word w ∧ ∀ j, j < 4 → s.textByte (s.pc + BitVec.ofNat 64 j) = some (byteOfWord w j)

/-! ### The meaning of EOR (immediate) -/

/-- R55, R71: the decode stage of a matching word. Without SVE it is UNDEFINED, with `DecodeBitMasks` UNDEFINED it is
UNDEFINED, and otherwise the execute stage runs on `dn = UInt(w[4:0])` and the 64-bit immediate as it is. -/
def Obligations.DecodeStage : Prop :=
  ∀ (s : State) (w : InstrWord), s.outcome = .running → s.fetch = .word w → isEorWord w = true →
    (s.cfg.haveSve = false → step s = .fault (.undefined w s.pc)) ∧
    (s.cfg.haveSve = true →
      decodeBitMasks64 (w.extractLsb' 17 1) (w.extractLsb' 5 6) (w.extractLsb' 11 6) true = none →
      step s = .fault (.undefined w s.pc)) ∧
    (s.cfg.haveSve = true → ∀ imm tmask,
      decodeBitMasks64 (w.extractLsb' 17 1) (w.extractLsb' 5 6) (w.extractLsb' 11 6) true = some (imm, tmask) →
      ∃ dn : Fin 32, dn.val = (w.extractLsb' 0 5).toNat ∧ step s = eorExecuteStage dn imm s)

/-- R72: the execute stage. With the access disabled it traps; with it enabled EOR (immediate) completes, every 64-bit
element of `Z[dn]` is its old value EOR the immediate, the elements fill the register, and the pc moves on by 4 (the line
`pc <- pc + 4` of R72, by R74 and the spec's decision D6, log entry 9). The bounds `2 <= elements <= 32` rest on R5 and its
decision D1 (log entry 15). -/
def Obligations.EorEveryElement : Prop :=
  ∀ (m : Imm13) (dn : Fin 32) (imm : Element) (s : State), m.imm = some imm → s.cfg.haveSve = true →
    s.cfg.elements * 64 = s.cfg.vl ∧ 2 ≤ s.cfg.elements ∧ s.cfg.elements ≤ 32 ∧
    (s.cfg.sveEnabled = false → exec (.eor m dn) s = .fault (.sveAccessTrap s.pc)) ∧
    (s.cfg.sveEnabled = true → ∃ t, exec (.eor m dn) s = .next t ∧
      (∀ e, e < s.cfg.elements → t.elem dn e = s.elem dn e ^^^ imm) ∧
      t.pc = s.pc + 4#64)

/-- R72, "Every bit of `result` is assigned exactly once": what the local `result` starts as is not seen. -/
def Obligations.LoopAssignsEveryBit : Prop :=
  ∀ (c : Config) (operand : BitVec c.vl) (imm : Element) (result0 : BitVec c.vl),
    eorLoop operand imm c.elements result0 = eorVector c operand imm

/-- The closed form of R83 (derived there). The element loop of R72 refines one exclusive OR with
`Replicate(imm, VL / 64)`, and the whole next state is that register and `pc + 4` over the old state. -/
def Obligations.EorClosedForm : Prop :=
  ∀ (m : Imm13) (dn : Fin 32) (imm : Element) (s : State), m.imm = some imm → s.sveReady →
    exec (.eor m dn) s =
      .next { s with z := s.z.set dn.val (s.readZ dn ^^^ replicateVl s.cfg imm), pc := s.pc + 4#64 }

/-- The frame of EOR (immediate), R73 and R40 (derived there): every other register, the outcome, the configuration, and every byte of the text (the only memory, R32) are as before; the pc is `pc + 4`.
The state holds no flags and no PSTATE.DIT (R27, R28); see EorReadsOnlyItsRegister. -/
def Obligations.EorFrame : Prop :=
  ∀ (m : Imm13) (dn : Fin 32) (s t : State), exec (.eor m dn) s = .next t →
    (∀ r, r ≠ dn → ∀ b, t.zBit r b = s.zBit r b) ∧
    t.outcome = s.outcome ∧ t.cfg = s.cfg ∧
    (∀ a, t.textByte a = s.textByte a) ∧
    t.pc = s.pc + 4#64

/-- R80 (derived there): bit `b` of the new `Z[dn]` is its old bit EOR `imm[b mod 64]`. -/
def Obligations.EorLaneLocal : Prop :=
  ∀ (m : Imm13) (dn : Fin 32) (imm : Element) (s : State), m.imm = some imm → s.sveReady →
    ∃ t, exec (.eor m dn) s = .next t ∧
      ∀ b, b < s.cfg.vl → t.zBit dn b = (s.zBit dn b ^^ imm.getLsbD (b % 64))

/-- R80 (derived there): independence of `VL`. Two machines of any two vector lengths that hold one value in an element each
hold one value there afterwards: so the low 128 bits of a result do not depend on `VL`, and a long register is its
128-bit slices. -/
def Obligations.EorIndependentOfLength : Prop :=
  ∀ (m : Imm13) (dn : Fin 32) (imm : Element) (s s' : State) (e e' : Nat), m.imm = some imm → s.sveReady → s'.sveReady →
    e < s.cfg.elements → e' < s'.cfg.elements → s.elem dn e = s'.elem dn e' →
    ∃ t t', exec (.eor m dn) s = .next t ∧ exec (.eor m dn) s' = .next t' ∧ t.elem dn e = t'.elem dn e'

/-- R77 (derived there): the result is what exclusive-ORing the `tbits`-wide constant into `tbits`-wide elements gives. -/
def Obligations.SizeLetterWithoutEffect : Prop :=
  ∀ (m : Imm13) (dn : Fin 32) (imm : Element) (ts : SizeSpec) (s : State), m.imm = some imm → sizeSpecOf m = some ts →
    s.sveReady →
    ∃ t, exec (.eor m dn) s = .next t ∧
      ∀ e, e < s.cfg.vl / ts.tbits →
        elemRead (t.readZ dn) e ts.tbits = elemRead (s.readZ dn) e ts.tbits ^^^ imm.extractLsb' 0 ts.tbits

/-- R78 (derived there): executing the same instruction twice in a row restores the register; only the pc has moved. -/
def Obligations.EorTwiceRestores : Prop :=
  ∀ (m : Imm13) (dn : Fin 32) (imm : Element) (s : State), m.imm = some imm → s.sveReady →
    ∃ t, exec (.eor m dn) s = .next t ∧ exec (.eor m dn) t = .next { s with pc := s.pc + 8#64 }

/-- R78 (derived there): two EOR (immediate) on the same register commute, and their combined effect is one exclusive OR with
`imm_1 EOR imm_2`. -/
def Obligations.EorCommutes : Prop :=
  ∀ (m1 m2 : Imm13) (dn : Fin 32) (imm1 imm2 : Element) (s : State), m1.imm = some imm1 → m2.imm = some imm2 →
    s.sveReady →
    ∃ t1 t2 u, exec (.eor m1 dn) s = .next t1 ∧ exec (.eor m2 dn) t1 = .next u ∧
      exec (.eor m2 dn) s = .next t2 ∧ exec (.eor m1 dn) t2 = .next u ∧
      ∀ e, e < s.cfg.elements → u.elem dn e = s.elem dn e ^^^ (imm1 ^^^ imm2)

/-- R79 (derived there): the instruction flips exactly `(S + 1) * VL / esize` bits of the register and keeps
`(esize - S - 1) * VL / esize`; so it is never the identity and never a full complement. -/
def Obligations.EorFlipCount : Prop :=
  ∀ (m : Imm13) (dn : Fin 32) (imm : Element) (s : State), m.imm = some imm → s.sveReady →
    ∃ t, exec (.eor m dn) s = .next t ∧
      (List.range s.cfg.vl).countP (fun b => t.zBit dn b != s.zBit dn b) = (m.s + 1) * s.cfg.vl / m.esize ∧
      (List.range s.cfg.vl).countP (fun b => t.zBit dn b == s.zBit dn b) = (m.esize - m.s - 1) * s.cfg.vl / m.esize ∧
      (∃ b, b < s.cfg.vl ∧ t.zBit dn b ≠ s.zBit dn b) ∧ ∃ b, b < s.cfg.vl ∧ t.zBit dn b = s.zBit dn b

/-- R26 (decision D6): the instruction does not read the pc, which advances by 4 modulo `2^64`. -/
def Obligations.PcAdvancesAndIsUnread : Prop :=
  ∀ (i : Instr) (s t : State) (p : Addr), exec i s = .next t →
    t.pc.toNat = (s.pc.toNat + 4) % 2 ^ 64 ∧ exec i { s with pc := p } = .next { t with pc := p + 4#64 }

/-- R23, R27, R28, R75 (derived there) and the line "State read" of R70: what EOR (immediate) reads is `Z[dn]` and the
configuration (its address only names a fault). Two states that agree in the configuration, the pc and `Z[dn]`, and may
differ in every other register, the text and the outcome, get the same fault or complete with the same `Z[dn]`, each keeping
its own other registers; and two running machines that fetch one word step so, whatever else of their texts differs. -/
def Obligations.EorReadsOnlyItsRegister : Prop :=
  ∀ s s' : State, s'.cfg = s.cfg → s'.pc = s.pc →
    (∀ (m : Imm13) (dn : Fin 32), (∀ b, s'.zBit dn b = s.zBit dn b) →
      (∀ f, exec (.eor m dn) s = .fault f → exec (.eor m dn) s' = .fault f) ∧
      ∀ t, exec (.eor m dn) s = .next t → ∃ t', exec (.eor m dn) s' = .next t' ∧ t'.pc = t.pc ∧
        (∀ b, t'.zBit dn b = t.zBit dn b) ∧ ∀ r, r ≠ dn → ∀ b, t'.zBit r b = s'.zBit r b) ∧
    ∀ w, s.outcome = .running → s'.outcome = .running → s.fetch = .word w → s'.fetch = .word w →
      (∀ b, s'.zBit (zdnOfWord w) b = s.zBit (zdnOfWord w) b) →
      (∀ f, step s = .fault f → step s' = .fault f) ∧ (∀ r, step s = .refused r → step s' = .refused r) ∧
      ∀ t, step s = .next t → ∃ t', step s' = .next t' ∧ t'.pc = t.pc ∧
        ∀ b, t'.zBit (zdnOfWord w) b = t.zBit (zdnOfWord w) b

/-! ### Exceptions and refusals -/

/-- R91: without SVE every matching word is UNDEFINED, whatever its fields; the fault records the word and its address, and
only the outcome changes. That nothing else changes and no step follows is R95 (derived there) and decision D4;
`State.advance` and the recorded stop are the model's log entries 6 and 11. -/
def Obligations.UndefinedWithoutSve : Prop :=
  ∀ (s : State) (w : InstrWord), s.outcome = .running → s.fetch = .word w → isEorWord w = true →
    s.cfg.haveSve = false →
    step s = .fault (.undefined w s.pc) ∧ s.advance = { s with outcome := .fault (.undefined w s.pc) } ∧
      s.advance.advance = s.advance

/-- R92 (resting on general knowledge G1 for six of the eight patterns): a reserved `imm13` is UNDEFINED in every
configuration and is never executed, neither by a step nor by the meaning itself. -/
def Obligations.UndefinedWhenReserved : Prop :=
  (∀ (s : State) (w : InstrWord), s.outcome = .running → s.fetch = .word w → isEorWord w = true →
    (imm13OfWord w).reserved = true → step s = .fault (.undefined w s.pc)) ∧
  ∀ (m : Imm13) (dn : Fin 32) (s : State), m.reserved = true →
    exec (.eor m dn) s = .fault (.undefined (encode (.eor m dn)) s.pc)

/-- R93: when the enable check does not pass the instruction traps, with its address, and no register changes.
That nothing but the outcome changes and no step follows is R95 (derived there) and decision D5; `State.advance` and the
recorded stop are the model's log entries 6 and 11. -/
def Obligations.SveAccessTrapWhenDisabled : Prop :=
  ∀ (s : State) (w : InstrWord) (i : Instr), s.outcome = .running → s.fetch = .word w → decodeWord w = .ok i →
    s.cfg.haveSve = true → s.cfg.sveEnabled = false →
    step s = .fault (.sveAccessTrap s.pc) ∧ s.advance = { s with outcome := .fault (.sveAccessTrap s.pc) } ∧
      s.advance.advance = s.advance

/-- R76 and R94 (their order by general knowledge G13): the three ways the instruction ends other than completion, in their
order, when it completes, and that it is never refused. -/
def Obligations.ExceptionsInOrder : Prop :=
  ∀ (m : Imm13) (dn : Fin 32) (s : State),
    (exec (.eor m dn) s = .fault (.undefined (encode (.eor m dn)) s.pc) ↔
      s.cfg.haveSve = false ∨ m.reserved = true) ∧
    (exec (.eor m dn) s = .fault (.sveAccessTrap s.pc) ↔
      s.cfg.haveSve = true ∧ m.reserved = false ∧ s.cfg.sveEnabled = false) ∧
    ((∃ t, exec (.eor m dn) s = .next t) ↔ s.cfg.haveSve = true ∧ m.reserved = false ∧ s.cfg.sveEnabled = true) ∧
    ∀ r, exec (.eor m dn) s ≠ .refused r

/-- R95 (decisions D4, D5) and R20: a fault or a refusal changes nothing but the outcome, which is never cleared, and there is
no further step; and a transition at the normal end of the run leaves the state as it is (R106, decision D13).
`State.advance` and the refusals' names are the model's, log entries 4, 6 and 11. -/
def Obligations.StopsArePreciseAndTerminal : Prop :=
  (∀ (s : State) (f : Fault), step s = .fault f → s.advance = { s with outcome := .fault f }) ∧
  (∀ (s : State) (r : Refusal), step s = .refused r → r ≠ .runEnded → s.advance = { s with outcome := .refused r }) ∧
  (∀ s : State, s.outcome = .running → s.fetch = .ended → s.advance = s) ∧
  (∀ (s : State) (k : Nat), s.outcome ≠ .running → s.advances k = s)

/-- R68 (decisions D10, D14): a word outside the match is refused under the spec's one spelling and changes only the outcome;
the words of an unpredicated MOVPRFX are such words. `State.advance` is the model's log entry 6. -/
def Obligations.OtherWordsRefused : Prop :=
  (∀ (s : State) (w : InstrWord), s.outcome = .running → s.fetch = .word w → isEorWord w = false →
    step s = .refused .notEorImmediate ∧ Refusal.reason .notEorImmediate = "not EOR (immediate)" ∧
      s.advance = { s with outcome := .refused .notEorImmediate }) ∧
  ∀ w : InstrWord, isMovprfxWord w = true → isEorWord w = false

/-- R102, reading 3 (derived there): the third requirement on a preceding MOVPRFX cannot be violated, so conforming is being
unpredicated and naming the same destination. -/
def Obligations.MovprfxThirdRequirementVacuous : Prop :=
  ∀ (p : Movprfx) (m : Imm13) (dn : Fin 32),
    (Instr.eor m dn).otherSources = [] ∧
    (movprfxConforms p (.eor m dn) = true ↔ p.predicated = false ∧ p.zd = dn)

/-! ### The launch state and whole-machine rules -/

/-- R33, R100 (decision D9): the launch state for any configuration, text and registers, and that reset is a launch state
whose registers hold the free values of log entry 1. The configuration, base and text of reset are the model's choice
(log entries 2 and 3) and nothing is stated of them. -/
def Obligations.LaunchState : Prop :=
  (∀ (c : Config) (x : ProgramText) (z : Vector (BitVec c.vl) 32),
    (State.launch c x z).pc = x.base ∧ (State.launch c x z).outcome = .running ∧
    ∀ n : Fin 32, (State.launch c x z).readZ n = z[n.val]) ∧
  State.reset.pc = State.reset.text.base ∧ State.reset.outcome = .running ∧
  ∀ n : Fin 32, State.reset.readZ n = Config.launchZ State.reset.cfg.vl n

/-- R12 and R21: a register reads back what was written to it, whichever of the 32 it is, and no other changes. -/
def Obligations.RegisterFile : Prop :=
  ∀ (s : State) (n : Fin 32) (v : BitVec s.cfg.vl),
    (s.writeZ n v).readZ n = v ∧ ∀ m : Fin 32, m ≠ n → (s.writeZ n v).readZ m = s.readZ m

/-- R5 to R7, R41 and R47: the configuration and the text are constant: no step, and no recorded stop, changes them. -/
def Obligations.ConfigurationConstant : Prop :=
  (∀ s t : State, step s = .next t → t.cfg = s.cfg ∧ t.text = s.text) ∧
  ∀ (s : State) (k : Nat), (s.advances k).cfg = s.cfg ∧ (s.advances k).text = s.text

/-- Tier 3 (b): every step keeps the invariant that the text meets R41 and the pc stands at a word of the text or at its end
(R41, R43). -/
def Obligations.StepKeepsInText : Prop :=
  ∀ s t : State, s.inText → step s = .next t → t.inText

/-- The invariant holds at every launch state of a text that meets R41, and at reset. -/
def Obligations.LaunchInText : Prop :=
  (∀ (c : Config) (x : ProgramText) (z : Vector (BitVec c.vl) 32), x.wf = true →
    (State.launch c x z).inText) ∧
  State.reset.inText

/-- R41 and R43: under the invariant the pc is aligned and the fetch never finds the pc outside the text. -/
def Obligations.PcAlignedAndInText : Prop :=
  ∀ s : State, s.inText → s.pc.extractLsb' 0 2 = 0#2 ∧ s.fetch ≠ .outside

/-- R106 (derived there). From every state under the invariant, a run is over (final, faulted or refused) after at most
as many transitions as words of the text are left. -/
def Obligations.RunIsOverWithinText : Prop :=
  ∀ s : State, s.inText → ∃ k, k ≤ s.text.prog.length - s.textOffset / 4 ∧ (s.advances k).over = true
end

