-- ==== Sys2Proof/Machine/Flags.lean ====
section
/-! DEFINITION. The two pieces of state the source names and the model does not hold (R27, R28), as they stand outside it,
and the flag computations of the instruction set: there is one, and it changes nothing (R27, R75). -/

namespace Sys2Proof.Machine

/-- The condition flags the source names (R27). -/
structure Nzcv where
  n : Bool
  z : Bool
  c : Bool
  v : Bool
deriving DecidableEq, Repr

/-- What the source names of PSTATE: the NZCV flags (R27) and `PSTATE.DIT` (R28). No part of `State` (log entry 5). -/
structure Pstate where
  nzcv : Nzcv
  dit : Bool
deriving DecidableEq, Repr

/-- The NZCV flags after EOR (immediate): "The instruction writes no condition flag and reads none" (R75). -/
def flagsAfterEor (before : Nzcv) : Nzcv := before

end Sys2Proof.Machine
end

