-- ==== Sys2Proof/Machine/Chip.lean ====
section
/-! DEFINITION. The model beside the PSTATE of the chip around it, so that the frame rules of R27, R28 and R75 can be stated
of state the model itself does not hold. The model is `State` and `step`; nothing of it uses this file. -/

namespace Sys2Proof.Machine

/-- The model's state and, outside it, the flags and `PSTATE.DIT` the source names (log entry 5). -/
structure Chip where
  machine : State
  pstate : Pstate
deriving DecidableEq, Repr

/-- An answer of the model, seen on the chip: the flags are as EOR (immediate) leaves them (R75) and `DIT` as it was (R28). -/
def Chip.lift (c : Chip) : Answer → Host.Outcome Chip Fault Refusal
  | .next t => .next { machine := t, pstate := { c.pstate with nzcv := flagsAfterEor c.pstate.nzcv } }
  | .fault f => .fault f
  | .refused r => .refused r

/-- The meaning of an instruction, seen on the chip. -/
def Chip.exec (c : Chip) (i : Instr) : Host.Outcome Chip Fault Refusal := c.lift (Sys2Proof.Machine.exec i c.machine)

/-- One step, seen on the chip. -/
def Chip.step (c : Chip) : Host.Outcome Chip Fault Refusal := c.lift (Sys2Proof.Machine.step c.machine)

end Sys2Proof.Machine
end

