-- ==== Sys2Proof/Laws/State.lean ====
section
/-! SUPPORT. What each named operation does to each field of the state, and the registers read after a write. -/

namespace Sys2Proof.Machine

section Updates
variable (s : State) (n : Fin 32) (v : BitVec s.cfg.vl) (w : InstrWord) (dn : Fin 32) (imm : Element)

@[simp] theorem writeZ_cfg : (s.writeZ n v).cfg = s.cfg := rfl
@[simp] theorem writeZ_text : (s.writeZ n v).text = s.text := rfl
@[simp] theorem writeZ_pc : (s.writeZ n v).pc = s.pc := rfl
@[simp] theorem writeZ_outcome : (s.writeZ n v).outcome = s.outcome := rfl

@[simp] theorem advancePc_cfg : s.advancePc.cfg = s.cfg := rfl
@[simp] theorem advancePc_text : s.advancePc.text = s.text := rfl
@[simp] theorem advancePc_z : s.advancePc.z = s.z := rfl
@[simp] theorem advancePc_pc : s.advancePc.pc = s.pc + 4#64 := rfl
@[simp] theorem advancePc_outcome : s.advancePc.outcome = s.outcome := rfl

@[simp] theorem placeWord_cfg : (s.placeWord w).cfg = s.cfg := rfl
@[simp] theorem placeWord_text : (s.placeWord w).text = placeText s.text s.pc w := rfl
@[simp] theorem placeWord_z : (s.placeWord w).z = s.z := rfl
@[simp] theorem placeWord_pc : (s.placeWord w).pc = s.pc := rfl
@[simp] theorem placeWord_outcome : (s.placeWord w).outcome = .running := rfl

@[simp] theorem eorCompleted_cfg : (s.eorCompleted dn imm).cfg = s.cfg := rfl
@[simp] theorem eorCompleted_text : (s.eorCompleted dn imm).text = s.text := rfl
@[simp] theorem eorCompleted_pc : (s.eorCompleted dn imm).pc = s.pc + 4#64 := rfl
@[simp] theorem eorCompleted_outcome : (s.eorCompleted dn imm).outcome = s.outcome := rfl

/-- A register reads back what was written to it: none is hardwired (R21). -/
@[simp] theorem readZ_writeZ_same : (s.writeZ n v).readZ n = v := by
  simp [State.readZ, State.writeZ]

/-- A write of one register leaves every other as it was (R12). -/
theorem readZ_writeZ_other (m : Fin 32) (h : m ≠ n) : (s.writeZ n v).readZ m = s.readZ m := by
  have h' : n.val ≠ m.val := fun e => h (Fin.ext e.symm)
  simp [State.readZ, State.writeZ, Vector.getElem_set_ne _ _ h']

theorem eorCompleted_readZ_same : (s.eorCompleted dn imm).readZ dn = eorVector s.cfg (s.readZ dn) imm :=
  readZ_writeZ_same s dn _

theorem eorCompleted_readZ_other (m : Fin 32) (h : m ≠ dn) : (s.eorCompleted dn imm).readZ m = s.readZ m :=
  readZ_writeZ_other s dn _ m h

end Updates

section Settle
variable (s : State)

@[simp] theorem settle_next (t : State) : s.settle (.next t) = t := rfl
@[simp] theorem settle_fault (f : Fault) : s.settle (.fault f) = { s with outcome := .fault f } := rfl
@[simp] theorem settle_runEnded : s.settle (.refused .runEnded) = s := rfl

theorem settle_refused (r : Refusal) (h : r ≠ .runEnded) :
    s.settle (.refused r) = { s with outcome := .refused r } := by
  cases r <;> first | rfl | exact absurd rfl h

end Settle

/-- Taking an exception changes nothing: it answers the fault (R95). -/
@[simp] theorem raise_eq (s : State) (f : Fault) : s.raise f = .fault f := rfl

end Sys2Proof.Machine
end

