-- ==== Sys2Proof/Laws/Chip.lean ====
section
/-! SUPPORT. What the frame around the model does: it carries the flags and DIT through, whatever the model answers. These are
facts of the frame alone; what the model reads is stated in the obligations (EorReadsOnlyItsRegister). -/

namespace Sys2Proof.Machine

section Lift
variable (c : Chip)

/-- A next state of the model, seen on the chip: the PSTATE is as it was (R27, R28, R75). -/
@[simp] theorem lift_next (t : State) : c.lift (.next t) = .next { machine := t, pstate := c.pstate } := rfl
@[simp] theorem lift_fault (f : Fault) : c.lift (.fault f) = .fault f := rfl
@[simp] theorem lift_refused (r : Refusal) : c.lift (.refused r) = .refused r := rfl

end Lift

/-- If the chip goes on, so does the model, and the PSTATE stays. -/
theorem lift_eq_next {c c' : Chip} {a : Answer} (h : c.lift a = .next c') : a = .next c'.machine ∧ c'.pstate = c.pstate := by
  cases a <;> simp at h
  subst h
  exact ⟨rfl, rfl⟩

/-- An instruction that completes on the chip completes in the model and leaves the flags and DIT as they were. -/
theorem chip_exec_next {c c' : Chip} {i : Instr} (h : c.exec i = .next c') :
    exec i c.machine = .next c'.machine ∧ c'.pstate = c.pstate :=
  lift_eq_next h

/-- A step of the chip that goes on is a step of the model, and leaves the flags and DIT as they were. -/
theorem chip_step_next {c c' : Chip} (h : c.step = .next c') : step c.machine = .next c'.machine ∧ c'.pstate = c.pstate :=
  lift_eq_next h

/-- Putting other flags and another DIT beside the model changes what is carried through and nothing else. -/
theorem chip_step_pstate {c c' : Chip} (p : Pstate) (h : c.step = .next c') :
    ({ c with pstate := p } : Chip).step = .next { c' with pstate := p } := by
  have hm := (chip_step_next h).1
  change ({ c with pstate := p } : Chip).lift (step c.machine) = _
  rw [hm, lift_next]

end Sys2Proof.Machine
end

