-- ==== Sys2Proof/Laws/Decode.lean ====
section
/-! SUPPORT. What the decoder answers, and the fields it reads back from an encoded word. -/

namespace Sys2Proof

/-- The decoder gives an instruction exactly for a word that matches R52 and whose immediate `DecodeBitMasks` admits. -/
theorem decodeWord_ok {w : InstrWord} {i : Instr} :
    decodeWord w = .ok i ↔
      isEorWord w = true ∧ (imm13OfWord w).imm.isSome = true ∧ i = .eor (imm13OfWord w) (zdnOfWord w) := by
  unfold decodeWord
  cases h1 : isEorWord w <;> cases h2 : (imm13OfWord w).imm <;> simp [eq_comm]

/-- The decoder rejects as "not EOR (immediate)" exactly the words outside the match (R68). -/
theorem decodeWord_notEor {w : InstrWord} : decodeWord w = .error .notEorImmediate ↔ isEorWord w = false := by
  unfold decodeWord
  cases h1 : isEorWord w <;> cases h2 : (imm13OfWord w).imm <;> simp

/-- Each bit of an encoded word, box by box (R51). -/
theorem getLsbD_encode (m : Imm13) (dn : Fin 32) (i : Nat) :
    (encode (.eor m dn)).getLsbD i =
      if i < 5 then (BitVec.ofFin (w := 5) dn).getLsbD i
      else if i < 11 then m.imms.getLsbD (i - 5)
      else if i < 17 then m.immr.getLsbD (i - 11)
      else if i < 18 then m.n.getLsbD (i - 17)
      else (0b00000101010000#14).getLsbD (i - 18) := by
  have h : encode (.eor m dn) = 0b00000101010000#14 ++ (m.n ++ m.immr ++ m.imms) ++ BitVec.ofFin (w := 5) dn := rfl
  rw [h]
  simp only [BitVec.getLsbD_append]
  split_ifs <;> first | (exfalso; omega) | (congr 1; try omega)

theorem isEorWord_encode (m : Imm13) (dn : Fin 32) : isEorWord (encode (.eor m dn)) = true := by
  have : encode (.eor m dn) &&& 0xFFFC0000#32 = 0x05400000#32 := by
    apply BitVec.eq_of_getLsbD_eq
    intro i hi
    rw [BitVec.getLsbD_and, getLsbD_encode]
    interval_cases i <;> simp
  simp [isEorWord, this]

theorem imm13OfWord_encode (m : Imm13) (dn : Fin 32) : imm13OfWord (encode (.eor m dn)) = m := by
  obtain ⟨n, immr, imms⟩ := m
  simp only [imm13OfWord, Imm13.mk.injEq]
  refine ⟨?_, ?_, ?_⟩ <;>
    · apply BitVec.eq_of_getLsbD_eq
      intro i hi
      rw [BitVec.getLsbD_extractLsb', getLsbD_encode]
      interval_cases i <;> simp

theorem zdnOfWord_encode (m : Imm13) (dn : Fin 32) : zdnOfWord (encode (.eor m dn)) = dn := by
  have : (encode (.eor m dn)).extractLsb' 0 5 = BitVec.ofFin (w := 5) dn := by
    apply BitVec.eq_of_getLsbD_eq
    intro i hi
    rw [BitVec.getLsbD_extractLsb', getLsbD_encode]
    interval_cases i <;> simp
  simp [zdnOfWord, this]

/-- The immediate in the terms `len`, `S`, `R` and `esize` of R56: its two UNDEFINED exits, and the replicated rotated run. -/
theorem imm_eq (m : Imm13) :
    m.imm =
      if m.len < 1 then none
      else if m.imms &&& lowOnes 6 m.len.toNat = lowOnes 6 m.len.toNat then none
      else some (replicate64 (ror (lowOnes m.esize (m.s + 1)) m.r)) := by
  unfold Imm13.imm decodeBitMasks64
  change (if m.len < 1 then none else bitMasksOfLen m.len.toNat m.imms m.immr true).map Prod.fst = _
  split_ifs with h1 h2
  · rfl
  · simp [bitMasksOfLen, h2]
  · simp [bitMasksOfLen, h2, Imm13.esize, Imm13.s, Imm13.r]

end Sys2Proof
end

