-- ==== Sys2Proof/Laws/Element.lean ====
section
/-! SUPPORT. The element accessor and the element loop, bit by bit. -/

namespace Sys2Proof.Machine

theorem getLsbD_lowOnes (w k i : Nat) : (lowOnes w k).getLsbD i = (decide (i < w) && decide (i < k)) := by
  simp [lowOnes]

theorem getLsbD_elemRead {w : Nat} (v : BitVec w) (e size i : Nat) :
    (elemRead v e size).getLsbD i = (decide (i < size) && v.getLsbD (e * size + i)) := by
  simp [elemRead, BitVec.getLsbD_extractLsb']

/-- A write of an element replaces exactly its slice (R12). -/
theorem getLsbD_elemWrite {w : Nat} (v : BitVec w) (e size : Nat) (x : BitVec size) (i : Nat)
    (fits : (e + 1) * size ≤ w) :
    (elemWrite v e size x).getLsbD i =
      if e * size ≤ i ∧ i < (e + 1) * size then x.getLsbD (i - e * size) else v.getLsbD i := by
  rw [Nat.succ_mul e size] at fits ⊢
  simp only [elemWrite, BitVec.getLsbD_or, BitVec.getLsbD_and, BitVec.getLsbD_not, BitVec.getLsbD_shiftLeft,
    getLsbD_lowOnes, BitVec.getLsbD_setWidth]
  generalize e * size = b at fits ⊢
  rcases Nat.lt_or_ge i w with hw | hw
  · by_cases hb : i < b
    · rw [if_neg (by omega)]
      simp [hw, hb]
    · by_cases hs : i < b + size
      · rw [if_pos (by omega)]
        have h1 : i - b < w := by omega
        have h2 : i - b < size := by omega
        simp [hw, hb, h1, h2]
      · rw [if_neg (by omega)]
        have h2 : ¬ i - b < size := by omega
        simp [hw, hb, h2, BitVec.getLsbD_of_ge x (i - b) (Nat.not_lt.mp h2)]
  · rw [if_neg (by omega), BitVec.getLsbD_of_ge v i hw]
    simp [Nat.not_lt.mpr hw]

/-- What one iteration of the loop leaves in each bit of `result` (R72). -/
theorem getLsbD_eorElement {w : Nat} (operand : BitVec w) (imm : Element) (result : BitVec w) (e i : Nat)
    (fits : (e + 1) * 64 ≤ w) :
    (eorElement operand imm result e).getLsbD i =
      if e * 64 ≤ i ∧ i < (e + 1) * 64 then (operand.getLsbD i ^^ imm.getLsbD (i % 64)) else result.getLsbD i := by
  rw [eorElement, getLsbD_elemWrite _ _ _ _ _ fits]
  by_cases h : e * 64 ≤ i ∧ i < (e + 1) * 64
  · rw [if_pos h, if_pos h, BitVec.getLsbD_xor, getLsbD_elemRead]
    have h1 : i - e * 64 < 64 := by omega
    have h2 : e * 64 + (i - e * 64) = i := by omega
    have h3 : i - e * 64 = i % 64 := by omega
    rw [h2, ← h3]
    simp [h1]
  · rw [if_neg h, if_neg h]

/-- After `n` iterations the low `64 * n` bits are done and the others are as `result` started (R72). -/
theorem getLsbD_eorLoop {w : Nat} (operand : BitVec w) (imm : Element) (result0 : BitVec w) (n i : Nat)
    (fits : n * 64 ≤ w) :
    (eorLoop operand imm n result0).getLsbD i =
      if i < n * 64 then (operand.getLsbD i ^^ imm.getLsbD (i % 64)) else result0.getLsbD i := by
  induction n with
  | zero => simp [eorLoop]
  | succ n ih =>
    have step : eorLoop operand imm (n + 1) result0 = eorElement operand imm (eorLoop operand imm n result0) n := by
      simp [eorLoop, List.range_succ]
    rw [step, getLsbD_eorElement _ _ _ _ _ fits, ih (by omega)]
    by_cases h1 : i < n * 64
    · rw [if_neg (by omega), if_pos h1, if_pos (by omega)]
    · by_cases h2 : i < (n + 1) * 64
      · rw [if_pos (by omega), if_pos h2]
      · rw [if_neg (by omega), if_neg h1, if_neg h2]

/-- The elements fill the register: `elements * 64 = VL` (R72). -/
theorem elements_mul (c : Config) : c.elements * 64 = c.vl := by
  simp only [Config.elements, Config.vl]; omega

/-- Bit `i` of the value the operation assigns to `Z[dn]` (R72). -/
theorem getLsbD_eorVector (c : Config) (operand : BitVec c.vl) (imm : Element) (i : Nat) (h : i < c.vl) :
    (eorVector c operand imm).getLsbD i = (operand.getLsbD i ^^ imm.getLsbD (i % 64)) := by
  rw [eorVector, getLsbD_eorLoop _ _ _ _ _ (elements_mul c).le, if_pos (by rw [elements_mul]; exact h)]

end Sys2Proof.Machine
end

