-- ==== Sys2Proof/Laws/PerInstr.lean ====
section
/-! SUPPORT. Statements made of every instruction as syntax, one lemma per constructor. -/

/-- The word of an instruction matches the opcode table's row under its mask (R52). -/
def Sys2Proof.Laws.EncodingMatches.Statement (i : Sys2Proof.Instr) : Prop :=
  Sys2Proof.encode i &&& 0xFFFC0000#32 = 0x05400000#32

theorem Sys2Proof.Laws.EncodingMatches.eor (m : Sys2Proof.Imm13) (dn : Fin 32) :
    Sys2Proof.Laws.EncodingMatches.Statement (.eor m dn) := by
  have h := Sys2Proof.isEorWord_encode m dn
  simpa [Sys2Proof.isEorWord, Sys2Proof.Laws.EncodingMatches.Statement] using h
end

