-- ==== Sys2Proof/Laws/Step.lean ====
section
/-! SUPPORT. What a meaning and a step can do, said once. -/

namespace Sys2Proof.Machine

/-- If EOR (immediate) answers a next state, SVE is present and enabled, the immediate is not reserved, and the state is the
completed one (R71, R72). -/
theorem execEor_next {m : Imm13} {dn : Fin 32} {s t : State} (h : execEor m dn s = .next t) :
    s.cfg.haveSve = true ∧ s.cfg.sveEnabled = true ∧ ∃ imm, m.imm = some imm ∧ t = s.eorCompleted dn imm := by
  unfold execEor eorDecodeStage at h
  cases hs : s.cfg.haveSve <;> cases hm : m.imm <;> cases he : s.cfg.sveEnabled <;>
    simp_all [eorExecuteStage]

/-- EOR (immediate) with its premises (R101) completes. -/
theorem execEor_completes {m : Imm13} {dn : Fin 32} {s : State} {imm : Element} (hs : s.cfg.haveSve = true)
    (he : s.cfg.sveEnabled = true) (hm : m.imm = some imm) : execEor m dn s = .next (s.eorCompleted dn imm) := by
  simp [execEor, eorDecodeStage, eorExecuteStage, hs, he, hm]

/-- EOR (immediate) is never refused (R76). -/
theorem execEor_not_refused (m : Imm13) (dn : Fin 32) (s : State) (r : Refusal) : execEor m dn s ≠ .refused r := by
  unfold execEor eorDecodeStage
  cases s.cfg.haveSve <;> cases m.imm <;> cases he : s.cfg.sveEnabled <;> simp [eorExecuteStage, he]

/-- A step of a running machine that fetched an instruction is that instruction's meaning. -/
theorem step_of_word {s : State} {w : InstrWord} {i : Instr} (ho : s.outcome = .running) (hf : s.fetch = .word w)
    (hd : decodeWord w = .ok i) : step s = exec i s := by
  simp [step, cycle, ho, runFetched, hf, runWord, hd]

/-- If a step answers a next state, the machine was running, fetched a word that decodes, and the next state is the one that
instruction's meaning answers (R106). -/
theorem step_next {s t : State} (h : step s = .next t) :
    s.outcome = .running ∧ ∃ w i, s.fetch = .word w ∧ decodeWord w = .ok i ∧ exec i s = .next t := by
  unfold step cycle at h
  split at h
  · next ho =>
    refine ⟨ho, ?_⟩
    unfold runFetched at h
    split at h
    · cases h
    · next w hw =>
      unfold runWord at h
      split at h
      · next i hi => exact ⟨w, i, hw, hi, h⟩
      · cases h
      · cases h
    · cases h
  · cases h
  · cases h

/-- The next state of a step is a completed EOR (immediate). -/
theorem step_next_completed {s t : State} (h : step s = .next t) :
    ∃ w m dn imm, s.fetch = .word w ∧ decodeWord w = .ok (.eor m dn) ∧ m.imm = some imm ∧ t = s.eorCompleted dn imm := by
  obtain ⟨-, w, ⟨m, dn⟩, hw, hd, hx⟩ := step_next h
  obtain ⟨-, -, imm, hm, rfl⟩ := execEor_next hx
  exact ⟨w, m, dn, imm, hw, hd, hm, rfl⟩

/-- A stopped machine answers its recorded fault again. -/
theorem step_of_fault {s : State} {f : Fault} (h : s.outcome = .fault f) : step s = .fault f := by
  simp [step, cycle, h]

/-- A stopped machine answers its recorded refusal again. -/
theorem step_of_refused {s : State} {r : Refusal} (h : s.outcome = .refused r) : step s = .refused r := by
  simp [step, cycle, h]

/-- If a fetch finds a word, it is the word of the text at the pc's offset (R41). -/
theorem fetch_word {s : State} {w : InstrWord} (h : s.fetch = .word w) :
    s.textOffset ≠ 4 * s.text.prog.length % 2 ^ 64 ∧ s.textOffset % 4 = 0 ∧ s.text.prog[s.textOffset / 4]? = some w := by
  unfold State.fetch at h
  split at h
  · cases h
  · next hne =>
    split at h
    · next h4 =>
      split at h
      · next v hv => cases h; exact ⟨hne, h4, hv⟩
      · cases h
    · cases h

/-- What each outcome of the fetch says of the pc and the text (R41, R106). -/
theorem fetch_eq_ended {s : State} : s.fetch = .ended ↔ s.textOffset = 4 * s.text.prog.length % 2 ^ 64 := by
  unfold State.fetch
  split_ifs with h h4
  · simpa using h
  · cases s.text.prog[s.textOffset / 4]? <;> simpa using h
  · simpa using h

theorem fetch_eq_word {s : State} {w : InstrWord} (hne : s.textOffset ≠ 4 * s.text.prog.length % 2 ^ 64)
    (h4 : s.textOffset % 4 = 0) (hw : s.text.prog[s.textOffset / 4]? = some w) : s.fetch = .word w := by
  rw [State.fetch, if_neg hne, if_pos h4, hw]

/-- The word placed for the host is the one the next fetch reads, in every state. -/
theorem fetch_placeWord (s : State) (w : InstrWord) : (s.placeWord w).fetch = .word w := by
  have hlt : (s.pc - s.text.base).toNat < 2 ^ 64 := (s.pc - s.text.base).isLt
  apply fetch_eq_word <;> simp only [State.textOffset, placeWord_pc, placeWord_text, placeText] <;> split_ifs with h1 h2
  · simp only [List.length_set]; omega
  · simp only [List.length_append, List.length_singleton]; omega
  · simp
  · exact h1.1
  · simp only; omega
  · simp
  · exact List.getElem?_set_self h1.2.1
  · rw [h2, Nat.mul_div_cancel_left _ (by omega)]; simp
  · simp

/-- A step after placing a word runs that word (R106). -/
theorem step_placeWord (s : State) (w : InstrWord) : step (s.placeWord w) = runWord exec (s.placeWord w) w := by
  simp [step, cycle, runFetched, fetch_placeWord]

end Sys2Proof.Machine
end

