-- ==== Sys2Proof/Tests/Slice0.lean ====
section
/-! SUPPORT. The model's own tests: the WellFormed smoke, decoded words, a few steps with results from spec/95, and one
witness for every statement that has hypotheses. -/

namespace Sys2Proof.Tests

open Sys2Proof Sys2Proof.Machine

/-! ### WellFormed smoke: one ill-formed term for each reserved pattern of R59, and a well-formed neighbour (V-U) -/

theorem test_illformed_len0 : (Instr.eor ⟨0#1, 0b000000#6, 0b111110#6⟩ 0).wellFormed = false := by decide
theorem test_illformed_lenNegative : (Instr.eor ⟨0#1, 0b111111#6, 0b111111#6⟩ 0).wellFormed = false := by decide
theorem test_illformed_ones32 : (Instr.eor ⟨0#1, 0b000000#6, 0b011111#6⟩ 0).wellFormed = false := by decide
theorem test_illformed_ones16 : (Instr.eor ⟨0#1, 0b000000#6, 0b101111#6⟩ 0).wellFormed = false := by decide
theorem test_illformed_ones8 : (Instr.eor ⟨0#1, 0b000000#6, 0b110111#6⟩ 0).wellFormed = false := by decide
theorem test_illformed_ones4 : (Instr.eor ⟨0#1, 0b000000#6, 0b111011#6⟩ 0).wellFormed = false := by decide
theorem test_illformed_ones2 : (Instr.eor ⟨0#1, 0b000000#6, 0b111101#6⟩ 0).wellFormed = false := by decide
theorem test_illformed_ones64 : (Instr.eor ⟨1#1, 0b000000#6, 0b111111#6⟩ 0).wellFormed = false := by decide
theorem test_wellformed_neighbour : (Instr.eor ⟨1#1, 0b000000#6, 0b011111#6⟩ 0).wellFormed = true := by decide

/-! ### Decoding: words written out from the diagram of R51 and the rows of R69, V-D and V-W -/

/-- `00000101 0 1 0000 | 0 000101 110101 | 00000`, V-W row 1: `EOR Z0.B, Z0.B, #0xf9`. -/
theorem test_decode_b : decodeWord 0b00000101010000_0_000101_110101_00000#32 =
    .ok (.eor ⟨0#1, 0b000101#6, 0b110101#6⟩ 0) := by decide
/-- V-W row 4: `EOR Z31.D, Z31.D, #0xfffffffffffffffe`. -/
theorem test_decode_d31 : decodeWord 0b00000101010000_1_111111_111110_11111#32 =
    .ok (.eor ⟨1#1, 0b111111#6, 0b111110#6⟩ 31) := by decide
/-- R69, the immediate of `0x0543EFA0`. -/
theorem test_imm_d : (imm13OfWord 0x0543EFA0#32).imm = some 0xFFFFFFFFFFFFFFF9#64 := by decide
/-- R69, the immediate of `0x05406DA0`. -/
theorem test_imm_h : (imm13OfWord 0x05406DA0#32).imm = some 0xFFF9FFF9FFF9FFF9#64 := by decide
/-- V-R: a redundant encoding of `0x5555555555555555`. -/
theorem test_imm_redundant : (imm13OfWord 0x05410780#32).imm = some 0x5555555555555555#64 := by decide
/-- V-X: a reserved word, a word with bit 22 cleared, a MOVPRFX word. -/
theorem test_decode_rejects : decodeWord 0x054007A0#32 = .error .reservedImm13 ∧
    decodeWord 0x0500001F#32 = .error .notEorImmediate ∧ decodeWord 0x0420BC20#32 = .error .notEorImmediate := by decide
/-- V-W row 7, from its bytes `1F 00 40 05`. -/
theorem test_decode_bytes : decodeBytes [0x1F#8, 0x00#8, 0x40#8, 0x05#8] = .ok (.eor ⟨0#1, 0#6, 0#6⟩ 31, []) := by decide
/-- V-E: a value with no encoding; R67 with V-R: the canonical encoding of `0x8000000080000000` is `0x0040`. -/
theorem test_canonical : encodeBitMask 0x5#64 = none ∧
    (encodeBitMask 0x8000000080000000#64).map Imm13.bits = some 0x0040#13 := by decide
/-- R69, row 7, its disassembly. -/
theorem test_disassembly : (disassemble (.eor ⟨0#1, 0b000101#6, 0b110101#6⟩ 0)).map EorText.render =
    some "EOR Z0.B, Z0.B, #0xf9" := by decide
/-- R81: `EON Z3.H, Z3.H, #0xff00` assembles to `0x054004E3`. -/
theorem test_eon : (assembleEon ⟨3, .h, 3, .h, 0xff00⟩).map encode = some 0x054004E3#32 := by decide

/-! ### One step -/

/-- A launch at `0x1000` of a text, every register holding the same value `z`. -/
def launchWith (k : Fin 16) (haveSve sveEnabled : Bool) (prog : List InstrWord) (z : Nat) : State :=
  .launch ⟨k, haveSve, sveEnabled⟩ ⟨0x1000#64, prog⟩ (Vector.replicate 32 (BitVec.ofNat _ z))

/-- V-W row 6 at `VL = 128`, `EOR Z5.D, Z5.D, #0xffffffff00000000`, and V-L row 1 at `VL = 256`, `EOR Z7.H, Z7.H, #0xfff9`. -/
theorem test_eor_result : (match step (launchWith 0 true true [0x054303E5#32] 0xDEADBEEFCAFEF00D0BADC0DE8BADF00D),
      step (launchWith 1 true true [0x05406DA7#32] 0x00112233445566778899AABBCCDDEEFF0F1E2D3C4B5A69788796A5B4C3D2E1F0) with
    | .next t, .next u => (t.readZ 5).toNat == 0x21524110CAFEF00DF4523F218BADF00D && t.pc == 0x1004#64 &&
      (u.readZ 7).toNat == 0xFFE8DDCABBAC998E7760554233241106F0E7D2C5B4A39681786F5A4D3C2B1E09
    | _, _ => false) = true := by decide
/-- V-X: with the access disabled a reserved word is UNDEFINED, not a trap (R94), and a valid one traps. -/
theorem test_priority : step (launchWith 0 true false [0x054007C0#32] 5) = .fault (.undefined 0x054007C0#32 0x1000#64) ∧
    step (launchWith 0 true false [0x054200E0#32] 5) = .fault (.sveAccessTrap 0x1000#64) := ⟨rfl, rfl⟩
/-- The first step from reset finds the end of the empty text; a placed word runs as the first instruction. -/
theorem test_first_step : step State.reset = .refused .runEnded ∧
    (match step (State.reset.withFetchWord 32 0x05400000) with | .next t => t.pc == 4#64 | _ => false) = true :=
  ⟨rfl, by decide⟩

/-! ### Witnesses: for every statement with hypotheses, values that meet them together -/

/-- `EOR Z0.D, Z0.D, #0xff`, the word `0x054200E0`. -/
def maskD : Imm13 := ⟨1#1, 0b000000#6, 0b000111#6⟩
/-- `EOR Z0.H, Z0.H, #0xff00`, the word `0x054044E0`. -/
def maskH : Imm13 := ⟨0#1, 0b001000#6, 0b100111#6⟩
/-- A reserved immediate, `imm13 = 0x003E`. -/
def maskReserved : Imm13 := ⟨0#1, 0b000000#6, 0b111110#6⟩
/-- A running machine in which the instruction has its effect. -/
def ready : State := launchWith 0 true true [0x054200E0#32] 5

/-- The mask `0xff` completes wherever the instruction has its effect. -/
theorem maskD_completes (s : State) (h : s.sveReady) : exec (.eor maskD 0) s = .next (s.eorCompleted 0 0xFF#64) :=
  execEor_completes h.1 h.2 (by decide)

theorem witness_DecodeOfEncode : (Instr.eor maskD 31).wellFormed = true := by decide
theorem witness_EncodeOfDecoded : decodeWord 0x054200E0#32 = .ok (.eor maskD 0) := by decide
theorem witness_BytesAreLittleEndian : (Instr.eor maskH 7).wellFormed = true := by decide

theorem witness_ElementSizeTable :
    (⟨1#1, 0#6, 0b000000#6⟩ : Imm13).n = 1#1 ∧ (⟨0#1, 0#6, 0b011111#6⟩ : Imm13).imms &&& 0b100000#6 = 0b000000#6 ∧
    (⟨0#1, 0#6, 0b100000#6⟩ : Imm13).imms &&& 0b110000#6 = 0b100000#6 ∧
    (⟨0#1, 0#6, 0b110000#6⟩ : Imm13).imms &&& 0b111000#6 = 0b110000#6 ∧
    (⟨0#1, 0#6, 0b111000#6⟩ : Imm13).imms &&& 0b111100#6 = 0b111000#6 ∧
    (⟨0#1, 0#6, 0b111101#6⟩ : Imm13).imms &&& 0b111110#6 = 0b111100#6 ∧ maskReserved.imms = 0b111110#6 ∧
    (⟨0#1, 0#6, 0b111111#6⟩ : Imm13).imms = 0b111111#6 ∧ maskReserved.n = 0#1 := by decide

theorem witness_ImmediateClosedForm : maskH.imm = some 0xFF00FF00FF00FF00#64 ∧ maskH.esize = 16 ∧ maskH.s = 7 ∧
    maskH.r = 8 := by decide
theorem witness_ImmediateNeverZeroNorOnes : maskD.imm = some 0xFF#64 := by decide
theorem witness_HighImmrBitsIgnored : ∃ m m' : Imm13, m ≠ m' ∧ m.n = m'.n ∧ m.imms = m'.imms ∧
    m.immr &&& lowOnes 6 m.len.toNat = m'.immr &&& lowOnes 6 m'.len.toNat :=
  ⟨⟨0#1, 0b000001#6, 0#6⟩, ⟨0#1, 0b100001#6, 0#6⟩, by decide⟩
theorem witness_CanonicalEncodingInverse : maskH.imm = some 0xFF00FF00FF00FF00#64 ∧
    encodeBitMask 0xFF00FF00FF00FF00#64 = some maskH := by decide

/-- The clauses of the table at the ends of their ranges, and immediates under two size specifiers. -/
theorem witness_SizeSpecifierTable :
    (⟨0#1, 0#6, 0b000000#6⟩ : Imm13).imms &&& 0b100000#6 = 0b000000#6 ∧
    (⟨0#1, 0#6, 0b101111#6⟩ : Imm13).imms &&& 0b110000#6 = 0b100000#6 ∧
    (⟨0#1, 0#6, 0b110111#6⟩ : Imm13).imms &&& 0b111000#6 = 0b110000#6 ∧
    (⟨0#1, 0#6, 0b111011#6⟩ : Imm13).imms &&& 0b111100#6 = 0b111000#6 ∧
    (⟨0#1, 0#6, 0b111100#6⟩ : Imm13).imms &&& 0b111110#6 = 0b111100#6 ∧ maskReserved.imms = 0b111110#6 ∧
    (⟨0#1, 0#6, 0b111111#6⟩ : Imm13).imms = 0b111111#6 ∧ maskReserved.n = 0#1 ∧ maskD.n = 1#1 ∧
    (sizeSpecOf maskD = some .d ∧ maskD.imm = some 0xFF#64) ∧
    (sizeSpecOf maskH = some .h ∧ maskH.imm = some 0xFF00FF00FF00FF00#64) ∧ ready.cfg.haveSve = true ∧
    disassemble (.eor maskH 3) = some ⟨3, .h, 3, .h, 0xff00⟩ := by decide

theorem witness_DisassembleThenAssemble : (Instr.eor maskH 3).wellFormed = true := by decide
theorem witness_EonInvertsConstant : (⟨3, .h, 3, .h, 0xff00⟩ : EorText).admitted = true ∧
    assembleEon ⟨3, .h, 3, .h, 0xff00⟩ = some (.eor ⟨0#1, 0b000000#6, 0b100111#6⟩ 3) := by decide

theorem witness_StepRunsDecodedInstruction : ready.outcome = .running ∧ ready.fetch = .word 0x054200E0#32 ∧
    decodeWord 0x054200E0#32 = .ok (.eor maskD 0) := by decide

/-- The end of a text, a pc outside it, and the two kinds of a stopped machine. -/
theorem witness_StepWithoutInstruction :
    (State.reset.outcome = .running ∧ State.reset.fetch = .ended) ∧
    (({ ready with pc := 0x1002#64 } : State).outcome = .running ∧
      ({ ready with pc := 0x1002#64 } : State).fetch = .outside) ∧
    ({ ready with outcome := .fault (.sveAccessTrap 0#64) } : State).outcome = .fault (.sveAccessTrap 0#64) ∧
    ({ ready with outcome := .refused .notEorImmediate } : State).outcome = .refused .notEorImmediate := by decide

theorem witness_PlacedWordRunsNext : decodeTableWord 32 0x054200E0 = some (.eor maskD 0) := by decide
theorem witness_FetchReadsText : ready.text.prog.length < 2 ^ 62 ∧ ready.text.prog[0]? = some 0x054200E0#32 ∧
    ready.pc = ready.text.base + BitVec.ofNat 64 (4 * 0) := by decide

/-- Its three clauses: no SVE, a reserved immediate, and a valid one. -/
theorem witness_DecodeStage :
    ((launchWith 0 false true [0x054200E0#32] 5).outcome = .running ∧
      (launchWith 0 false true [0x054200E0#32] 5).fetch = .word 0x054200E0#32 ∧ isEorWord 0x054200E0#32 = true ∧
      (launchWith 0 false true [0x054200E0#32] 5).cfg.haveSve = false) ∧
    ((launchWith 0 true true [0x054007C0#32] 5).fetch = .word 0x054007C0#32 ∧ isEorWord 0x054007C0#32 = true ∧
      (launchWith 0 true true [0x054007C0#32] 5).cfg.haveSve = true ∧
      decodeBitMasks64 0#1 0b111110#6 0#6 true = none) ∧
    (ready.fetch = .word 0x054200E0#32 ∧ ready.cfg.haveSve = true ∧
      (decodeBitMasks64 1#1 0b000111#6 0#6 true).map Prod.fst = some 0xFF#64) := by decide

/-- With the access disabled and with it enabled. -/
theorem witness_EorEveryElement : maskD.imm = some 0xFF#64 ∧ ready.cfg.haveSve = true ∧ ready.cfg.sveEnabled = true ∧
    (launchWith 15 true false [] 5).cfg.haveSve = true ∧ (launchWith 15 true false [] 5).cfg.sveEnabled = false := by decide
theorem witness_EorClosedForm : maskD.imm = some 0xFF#64 ∧ ready.sveReady := by decide
theorem witness_EorFrame : ∃ t, exec (.eor maskD 0) ready = .next t :=
  ⟨_, maskD_completes _ (by decide)⟩
theorem witness_EorLaneLocal : maskH.imm = some 0xFF00FF00FF00FF00#64 ∧ (launchWith 2 true true [] 7).sveReady := by decide
theorem witness_EorIndependentOfLength : maskD.imm = some 0xFF#64 ∧ (launchWith 0 true true [] 5).sveReady ∧
    (launchWith 1 true true [] 5).sveReady ∧ 1 < (launchWith 0 true true [] 5).cfg.elements ∧
    3 < (launchWith 1 true true [] 5).cfg.elements ∧
    (launchWith 0 true true [] 5).elem 3 1 = (launchWith 1 true true [] 5).elem 3 3 := by decide
theorem witness_SizeLetterWithoutEffect : maskH.imm = some 0xFF00FF00FF00FF00#64 ∧ sizeSpecOf maskH = some .h ∧
    ready.sveReady := by decide
theorem witness_EorTwiceRestores : maskD.imm = some 0xFF#64 ∧ (launchWith 3 true true [] 9).sveReady := by decide
theorem witness_EorCommutes : maskD.imm = some 0xFF#64 ∧ maskH.imm = some 0xFF00FF00FF00FF00#64 ∧ ready.sveReady := by decide
theorem witness_EorFlipCount : maskH.imm = some 0xFF00FF00FF00FF00#64 ∧ ready.sveReady := by decide
theorem witness_PcAdvancesAndIsUnread : ∃ t, exec (.eor maskD 0) { ready with pc := 0xFFFFFFFFFFFFFFFC#64 } = .next t :=
  ⟨_, maskD_completes _ (by decide)⟩
theorem witness_ConfigurationConstant : ∃ t, step ready = .next t :=
  ⟨_, (step_of_word rfl rfl (i := .eor maskD 0) (by decide)).trans (maskD_completes ready (by decide))⟩

/-- The same machine with another value in `Z1` and a longer text. -/
def readyOther : State :=
  { ready.writeZ 1 (BitVec.ofNat _ 9) with text := ⟨0x1000#64, [0x054200E0#32, 0x05400000#32]⟩ }

/-- Two states that agree in what the instruction reads and differ elsewhere, of which the first steps to a next state. -/
theorem witness_EorReadsOnlyItsRegister : readyOther.cfg = ready.cfg ∧ readyOther.pc = ready.pc ∧
    (∀ b, readyOther.zBit (zdnOfWord 0x054200E0#32) b = ready.zBit (zdnOfWord 0x054200E0#32) b) ∧
    (readyOther.outcome = .running ∧ ready.outcome = .running ∧ readyOther.fetch = .word 0x054200E0#32 ∧
      ready.fetch = .word 0x054200E0#32) ∧
    (∃ t, exec (.eor maskD 0) ready = .next t) ∧ (∃ t, step ready = .next t) ∧ readyOther.elem 1 0 ≠ ready.elem 1 0 :=
  ⟨rfl, rfl, fun _ => rfl, by decide, ⟨_, maskD_completes ready (by decide)⟩, witness_ConfigurationConstant, by decide⟩

/-- Its fault and refusal clauses: one state of each, which agrees with itself. -/
theorem witness_EorReadsOnlyItsRegister_stops :
    exec (.eor maskD 0) (launchWith 0 true false [0x054200E0#32] 5) = .fault (.sveAccessTrap 0x1000#64) ∧
    step (launchWith 0 true false [0x054200E0#32] 5) = .fault (.sveAccessTrap 0x1000#64) ∧
    (launchWith 0 true true [0x05440000#32] 5).fetch = .word 0x05440000#32 ∧
    step (launchWith 0 true true [0x05440000#32] 5) = .refused .notEorImmediate := ⟨rfl, rfl, by decide, rfl⟩

theorem witness_UndefinedWithoutSve : (launchWith 0 false false [0x0543FFFF#32] 5).outcome = .running ∧
    (launchWith 0 false false [0x0543FFFF#32] 5).fetch = .word 0x0543FFFF#32 ∧ isEorWord 0x0543FFFF#32 = true ∧
    (launchWith 0 false false [0x0543FFFF#32] 5).cfg.haveSve = false := by decide
theorem witness_UndefinedWhenReserved : (launchWith 0 true false [0x054007C0#32] 5).outcome = .running ∧
    (launchWith 0 true false [0x054007C0#32] 5).fetch = .word 0x054007C0#32 ∧ isEorWord 0x054007C0#32 = true ∧
    (imm13OfWord 0x054007C0#32).reserved = true ∧ maskReserved.reserved = true := by decide
theorem witness_SveAccessTrapWhenDisabled : (launchWith 0 true false [0x054200E0#32] 5).outcome = .running ∧
    (launchWith 0 true false [0x054200E0#32] 5).fetch = .word 0x054200E0#32 ∧
    decodeWord 0x054200E0#32 = .ok (.eor maskD 0) ∧ (launchWith 0 true false [0x054200E0#32] 5).cfg.haveSve = true ∧
    (launchWith 0 true false [0x054200E0#32] 5).cfg.sveEnabled = false := by decide
theorem witness_StopsArePreciseAndTerminal :
    step (launchWith 0 true false [0x054200E0#32] 5) = .fault (.sveAccessTrap 0x1000#64) ∧
    step (launchWith 0 true true [0x0420BC20#32] 5) = .refused .notEorImmediate ∧
    Refusal.notEorImmediate ≠ Refusal.runEnded ∧ (State.reset.outcome = .running ∧ State.reset.fetch = .ended) ∧
    ({ ready with outcome := .refused .notEorImmediate } : State).outcome ≠ .running := ⟨rfl, rfl, by decide, by decide, by decide⟩
theorem witness_OtherWordsRefused : (launchWith 0 true true [0x05440000#32] 5).outcome = .running ∧
    (launchWith 0 true true [0x05440000#32] 5).fetch = .word 0x05440000#32 ∧ isEorWord 0x05440000#32 = false ∧
    isMovprfxWord 0x0420BC20#32 = true := by decide

theorem witness_RegisterFile : (0 : Fin 32) ≠ 31 := by decide
theorem witness_StepKeepsInText : ready.inText ∧ ∃ t, step ready = .next t :=
  ⟨by decide, witness_ConfigurationConstant⟩
theorem witness_LaunchInText : (⟨0x1000#64, [0x054200E0#32]⟩ : ProgramText).wf = true := by decide
theorem witness_PcAlignedAndInText : ready.inText := by decide
/-- At the first word and at the end of the text. -/
theorem witness_RunIsOverWithinText : ready.inText ∧ ({ ready with pc := 0x1004#64 } : State).inText := by decide

end Sys2Proof.Tests
end

section
/-! SUPPORT. The boxes and fields of a word (R51, R54), and a word put together again from its fields. -/

namespace Sys2Proof

/-- An encoding is the fourteen fixed bits of R52, then `imm13`, then `Zdn`. -/
theorem encode_eq_append (m : Imm13) (dn : Fin 32) :
    encode (.eor m dn) = 0b00000101010000#14 ++ m.bits ++ BitVec.ofFin (w := 5) dn := rfl

/-- A slice of an encoding above bit 17 is that slice of the fixed bits. -/
theorem extractLsb'_encode_fixed (m : Imm13) (dn : Fin 32) {start len : Nat} (h : 18 ≤ start) :
    (encode (.eor m dn)).extractLsb' start len = (0b00000101010000#14).extractLsb' (start - 18) len := by
  rw [encode_eq_append, BitVec.extractLsb'_append_eq_of_le (by omega), BitVec.extractLsb'_append_eq_of_le (by omega),
    Nat.sub_sub]

theorem extractLsb'_encode_imm13 (m : Imm13) (dn : Fin 32) : (encode (.eor m dn)).extractLsb' 5 13 = m.bits := by
  rw [encode_eq_append, BitVec.extractLsb'_append_eq_of_le le_rfl, BitVec.extractLsb'_append_eq_right]

theorem extractLsb'_encode_zdn (m : Imm13) (dn : Fin 32) :
    (encode (.eor m dn)).extractLsb' 0 5 = BitVec.ofFin (w := 5) dn := by
  rw [encode_eq_append, BitVec.extractLsb'_append_eq_right]

section Imm13Fields
variable (m : Imm13)

@[simp] theorem Imm13.extractLsb'_bits_n : m.bits.extractLsb' 12 1 = m.n := by
  rw [Imm13.bits, BitVec.extractLsb'_append_eq_of_le (by omega), BitVec.extractLsb'_append_eq_left]

@[simp] theorem Imm13.extractLsb'_bits_immr : m.bits.extractLsb' 6 6 = m.immr := by
  rw [Imm13.bits, BitVec.extractLsb'_append_eq_of_le le_rfl, BitVec.extractLsb'_append_eq_right]

@[simp] theorem Imm13.extractLsb'_bits_imms : m.bits.extractLsb' 0 6 = m.imms := by
  rw [Imm13.bits, BitVec.extractLsb'_append_eq_right]

end Imm13Fields

/-- The three parts of a word's `imm13` are contiguous and make `w[17:5]` (R54). -/
theorem imm13OfWord_bits (w : InstrWord) : (imm13OfWord w).bits = w.extractLsb' 5 13 := by
  calc w.extractLsb' 17 1 ++ w.extractLsb' 11 6 ++ w.extractLsb' 5 6
      = w.extractLsb' 11 7 ++ w.extractLsb' 5 6 :=
        congrArg (· ++ w.extractLsb' 5 6) (BitVec.extractLsb'_append_extractLsb'_eq_extractLsb' rfl)
    _ = w.extractLsb' 5 13 := BitVec.extractLsb'_append_extractLsb'_eq_extractLsb' rfl

/-- A word in the match has the fixed bits in positions 31:18 (R52). -/
theorem fixedBits_of_isEorWord {w : InstrWord} (h : isEorWord w = true) : w.extractLsb' 18 14 = 0b00000101010000#14 := by
  have hmask : w &&& 0xFFFC0000#32 = 0x05400000#32 := by simpa [isEorWord] using h
  calc w.extractLsb' 18 14
      = w.extractLsb' 18 14 &&& BitVec.allOnes 14 := BitVec.and_allOnes.symm
    _ = (w &&& 0xFFFC0000#32).extractLsb' 18 14 := by rw [BitVec.extractLsb'_and]; rfl
    _ = 0b00000101010000#14 := by rw [hmask]; rfl

/-- A word in the match is the encoding of its own fields: the match fixes every bit that no field holds. -/
theorem encode_fields_of_isEorWord {w : InstrWord} (h : isEorWord w = true) :
    encode (.eor (imm13OfWord w) (zdnOfWord w)) = w := by
  calc encode (.eor (imm13OfWord w) (zdnOfWord w))
      = w.extractLsb' 18 14 ++ w.extractLsb' 5 13 ++ w.extractLsb' 0 5 := by
        rw [encode_eq_append, imm13OfWord_bits, fixedBits_of_isEorWord h]; rfl
    _ = w.extractLsb' 5 27 ++ w.extractLsb' 0 5 :=
        congrArg (· ++ w.extractLsb' 0 5) (BitVec.extractLsb'_append_extractLsb'_eq_extractLsb' rfl)
    _ = w := BitVec.extractLsb'_append_extractLsb'

/-- The decoder rejects as reserved exactly the words of the match whose immediate `DecodeBitMasks` makes UNDEFINED (R60). -/
theorem decodeWord_reserved {w : InstrWord} :
    decodeWord w = .error .reservedImm13 ↔ isEorWord w = true ∧ (imm13OfWord w).imm = none := by
  unfold decodeWord
  cases isEorWord w <;> cases (imm13OfWord w).imm <;> simp

end Sys2Proof
end

section
/-! SUPPORT. The stages of EOR (immediate), one equation per exit, and the step on a word of the match. -/

namespace Sys2Proof.Machine

/-- The arm of `exec` for EOR (immediate). -/
theorem exec_eor (m : Imm13) (dn : Fin 32) (s : State) : exec (.eor m dn) s = execEor m dn s := rfl

section Exits
variable {m : Imm13} {dn : Fin 32} {s : State}

theorem execEor_of_no_sve (hs : s.cfg.haveSve = false) :
    execEor m dn s = .fault (.undefined (encode (.eor m dn)) s.pc) := by
  simp [execEor, eorDecodeStage, hs]

theorem execEor_of_imm_none (hm : m.imm = none) :
    execEor m dn s = .fault (.undefined (encode (.eor m dn)) s.pc) := by
  cases hs : s.cfg.haveSve with
  | false => exact execEor_of_no_sve hs
  | true => simp [execEor, eorDecodeStage, hs, hm]

/-- With SVE and an immediate, the decode stage passes on the immediate and nothing else of `imm13` (R55, R61). -/
theorem execEor_of_imm_some {imm : Element} (hs : s.cfg.haveSve = true) (hm : m.imm = some imm) :
    execEor m dn s = eorExecuteStage dn imm s := by
  simp [execEor, eorDecodeStage, hs, hm]

end Exits

/-- A step of a running machine that fetched a word of the match is `execEor` on the word's fields, reserved or not: the step's
own UNDEFINED and that of the decode stage record the same word. -/
theorem step_of_isEorWord {s : State} {w : InstrWord} (ho : s.outcome = .running) (hf : s.fetch = .word w)
    (hw : isEorWord w = true) : step s = execEor (imm13OfWord w) (zdnOfWord w) s := by
  cases hm : (imm13OfWord w).imm with
  | none =>
    have hd : decodeWord w = .error .reservedImm13 := decodeWord_reserved.mpr ⟨hw, hm⟩
    rw [execEor_of_imm_none hm, encode_fields_of_isEorWord hw]
    simp [step, cycle, ho, runFetched, hf, runWord, hd]
  | some imm =>
    have hd : decodeWord w = .ok (.eor (imm13OfWord w) (zdnOfWord w)) :=
      decodeWord_ok.mpr ⟨hw, by rw [hm]; rfl, rfl⟩
    rw [step_of_word ho hf hd, exec_eor]

end Sys2Proof.Machine
end

section
/-! SUPPORT. The size specifier table (R61), read row by row, and the size specifiers of a disassembled text. -/

namespace Sys2Proof.Machine

/-- Two rows whose patterns agree where both look are the same row. -/
theorem sizeTable_rows_exclusive :
    ∀ r ∈ sizeTable, ∀ r' ∈ sizeTable, r.pattern &&& r'.mask = r'.pattern &&& r.mask → r = r' := by decide

/-- An `imm13` that falls under a row of the table has that row's size specifier, because it falls under no other. -/
theorem sizeSpecOf_of_row {m : Imm13} {r : SizeRow} (hr : r ∈ sizeTable)
    (hm : (m.n ++ m.imms) &&& r.mask = r.pattern) : sizeSpecOf m = r.spec := by
  have hin : r ∈ sizeRowsOf m := List.mem_filter.mpr ⟨hr, by simpa using hm⟩
  have honly : ∀ r' ∈ sizeRowsOf m, r' = r := by
    intro r' h'
    obtain ⟨hr', hm'⟩ := List.mem_filter.mp h'
    refine sizeTable_rows_exclusive r' hr' r hr ?_
    rw [← hm, ← beq_iff_eq.mp hm', BitVec.and_assoc, BitVec.and_assoc, BitVec.and_comm r'.mask]
  cases hrows : sizeRowsOf m with
  | nil => simp [hrows] at hin
  | cons r' rest =>
    have : r' = r := honly r' (by simp [hrows])
    simp [sizeSpecOf, hrows, this]

/-- A row of the table given by its two columns, `N` and a pattern of `imms`. -/
theorem sizeSpecOf_of_columns {m : Imm13} {n : BitVec 1} {mask pattern : BitVec 6} {spec : Option SizeSpec}
    (hrow : ⟨1#1 ++ mask, n ++ pattern, spec⟩ ∈ sizeTable) (hn : m.n = n) (hi : m.imms &&& mask = pattern) :
    sizeSpecOf m = spec := by
  refine sizeSpecOf_of_row hrow ?_
  rw [BitVec.and_append, hi, hn]
  congr 1
  exact BitVec.and_allOnes

/-- A disassembled text carries the table's size specifier at both occurrences of `<T>`. -/
theorem disassemble_sizes {m : Imm13} {dn : Fin 32} {x : EorText} (h : disassemble (.eor m dn) = some x) :
    sizeSpecOf m = some x.td ∧ sizeSpecOf m = some x.tn := by
  cases ht : sizeSpecOf m with
  | none => simp [disassemble, ht] at h
  | some t =>
    cases hv : m.imm with
    | none => simp [disassemble, ht, hv] at h
    | some v =>
      simp only [disassemble, ht, hv, Option.some.injEq] at h
      subst h
      exact ⟨rfl, rfl⟩

end Sys2Proof.Machine
end

section
/-! The statements on the encoding and the decode stage, settled. -/

namespace Sys2Proof.Machine

/-- Settles O15: the rows of the table exclude one another, and the meaning sees the immediate only. -/
theorem sizeSpecifierTable : Obligations.SizeSpecifierTable := by
  unfold Obligations.SizeSpecifierTable
  refine ⟨fun m => ⟨fun hn => ⟨?rowS, ?rowH, ?rowB8, ?rowB4, ?rowB2, ?rowLen0, ?rowLenNeg⟩, ?rowD⟩, ?meaning, ?text⟩
  case rowS | rowH | rowB8 | rowB4 | rowB2 => exact sizeSpecOf_of_columns (by decide) hn
  case rowLen0 | rowLenNeg =>
    exact fun hi => sizeSpecOf_of_columns (mask := 0b111111#6) (by decide) hn (BitVec.and_allOnes.trans hi)
  case rowD => exact fun hn => sizeSpecOf_of_columns (mask := 0#6) (by decide) hn BitVec.and_zero
  case meaning => exact fun m imm dn s hm hs => (exec_eor m dn s).trans (execEor_of_imm_some hs hm)
  case text => exact fun m dn x => disassemble_sizes

/-- Settles O22: the step is `execEor` on the word's fields, and each clause is one exit of its decode stage. -/
theorem decodeStage : Obligations.DecodeStage := by
  unfold Obligations.DecodeStage
  intro s w ho hf hw
  have hstep : step s = execEor (imm13OfWord w) (zdnOfWord w) s := step_of_isEorWord ho hf hw
  have hword : encode (.eor (imm13OfWord w) (zdnOfWord w)) = w := encode_fields_of_isEorWord hw
  refine ⟨fun hs => ?_, fun _ hnone => ?_, fun hs imm tmask hsome => ⟨zdnOfWord w, rfl, ?_⟩⟩
  · rw [hstep, execEor_of_no_sve hs, hword]
  · have hm : (imm13OfWord w).imm = none := congrArg (Option.map Prod.fst) hnone
    rw [hstep, execEor_of_imm_none hm, hword]
  · have hm : (imm13OfWord w).imm = some imm := congrArg (Option.map Prod.fst) hsome
    rw [hstep, execEor_of_imm_some hs hm]

/-- Settles O1: the four fixed boxes are slices of the fixed bits, and the two fields are read back. -/
theorem encodingBoxesAsDrawn : Obligations.EncodingBoxesAsDrawn := by
  unfold Obligations.EncodingBoxesAsDrawn
  intro m dn
  refine ⟨?box31_24, ?box23, ?box22, ?box21_18, extractLsb'_encode_imm13 m dn, ?zdn⟩
  case box31_24 | box23 | box22 | box21_18 => rw [extractLsb'_encode_fixed m dn (by omega)]; rfl
  case zdn => rw [extractLsb'_encode_zdn]; rfl

/-- Settles O3: the fields of the word are by definition the arguments of `DecodeBitMasks`, and they are the slices of `imm13`. -/
theorem immediateFieldSplit : Obligations.ImmediateFieldSplit := by
  unfold Obligations.ImmediateFieldSplit
  intro w
  rw [← imm13OfWord_bits w, Imm13.extractLsb'_bits_n, Imm13.extractLsb'_bits_immr, Imm13.extractLsb'_bits_imms]
  exact ⟨rfl, rfl, rfl, rfl, rfl, rfl, rfl, rfl⟩

end Sys2Proof.Machine
end

section
/-! SUPPORT. The execute stage of EOR (immediate): how many elements there are (R5), and what the element loop and the completed
state hold in one element (R72). -/

namespace Sys2Proof.Machine

/-- A vector length has two elements for each `k` of R5. -/
theorem elements_eq_two_mul_k (c : Config) : c.elements = 2 * c.k := by
  have hfill : c.elements * 64 = 128 * c.k := elements_mul c
  omega

/-- Between 2 and 32 elements, by the range of `k` (R5, D1). -/
theorem elements_bounds (c : Config) : 2 ≤ c.elements ∧ c.elements ≤ 32 := by
  have hk : c.k = c.kPred.val + 1 := rfl
  have hlt : c.kPred.val < 16 := c.kPred.isLt
  rw [elements_eq_two_mul_k]
  omega

/-- Element `e` of the value the operation assigns is that element of the operand EOR the immediate (R72). -/
theorem elemRead_eorVector (c : Config) (operand : BitVec c.vl) (imm : Element) {e : Nat} (he : e < c.elements) :
    elemRead (eorVector c operand imm) e 64 = elemRead operand e 64 ^^^ imm := by
  apply BitVec.eq_of_getLsbD_eq
  intro i hi
  have hin : e * 64 + i < c.vl := by rw [← elements_mul]; omega
  have hlow : (e * 64 + i) % 64 = i := by omega
  rw [BitVec.getLsbD_xor, getLsbD_elemRead, getLsbD_elemRead, getLsbD_eorVector c operand imm _ hin, hlow]
  simp [hi]

/-- Every element of `Z[dn]` in the completed state (R72, R73). -/
theorem eorCompleted_elem_same (s : State) (dn : Fin 32) (imm : Element) {e : Nat} (he : e < s.cfg.elements) :
    (s.eorCompleted dn imm).elem dn e = s.elem dn e ^^^ imm :=
  (congrArg (elemRead · e 64) (eorCompleted_readZ_same s dn imm)).trans (elemRead_eorVector s.cfg (s.readZ dn) imm he)

/-- Past the decode stage, a disabled access is the SVE access trap at the pc (R93). -/
theorem execEor_traps {m : Imm13} {dn : Fin 32} {s : State} {imm : Element} (hs : s.cfg.haveSve = true)
    (he : s.cfg.sveEnabled = false) (hm : m.imm = some imm) : execEor m dn s = .fault (.sveAccessTrap s.pc) := by
  rw [execEor_of_imm_some hs hm]
  simp [eorExecuteStage, he]

end Sys2Proof.Machine
end

section
/-! The statement on what the execute stage does, settled. -/

namespace Sys2Proof.Machine

/-- Settles O23: the elements fill the register; the execute stage traps when disabled, and otherwise completes element by
element. -/
theorem eorEveryElement : Obligations.EorEveryElement := by
  unfold Obligations.EorEveryElement
  intro m dn imm s hm hs
  obtain ⟨hlow, hhigh⟩ := elements_bounds s.cfg
  refine ⟨elements_mul s.cfg, hlow, hhigh, fun hoff => ?trap, fun hon => ⟨s.eorCompleted dn imm, ?completes, ?element, ?pc⟩⟩
  case trap => exact (exec_eor m dn s).trans (execEor_traps hs hoff hm)
  case completes => exact (exec_eor m dn s).trans (execEor_completes hs hon hm)
  case element => exact fun e he => eorCompleted_elem_same s dn imm he
  case pc => exact eorCompleted_pc s dn imm

end Sys2Proof.Machine
end

section
/-! SUPPORT. The parameters of `DecodeBitMasks` (R56, R57). `len` and reservedness are functions of the seven bits `N : imms`, so
their tables are decided over those bits; what is said of all 64-bit values is proved in the sections after this one. -/

namespace Sys2Proof

theorem highestSetBitBelow_lt {w : Nat} (x : BitVec w) (i : Nat) : highestSetBitBelow x i < i := by
  induction i with
  | zero => exact Int.negSucc_lt_zero 0
  | succ i ih =>
    rw [highestSetBitBelow]
    split <;> omega

/-- `len` is a bit position of the seven bits `N : NOT(imms)`. -/
theorem Imm13.len_lt_seven (m : Imm13) : m.len < 7 := highestSetBitBelow_lt _ _

theorem Imm13.len_toNat_le (m : Imm13) : m.len.toNat ≤ 6 := by
  have hlt : m.len < 7 := m.len_lt_seven
  omega

/-- The eight rows of R57. -/
theorem highestSetBit_rows : ∀ imms : BitVec 6,
    highestSetBit (1#1 ++ ~~~imms) = 6 ∧
    (imms &&& 0b100000#6 = 0b000000#6 → highestSetBit (0#1 ++ ~~~imms) = 5) ∧
    (imms &&& 0b110000#6 = 0b100000#6 → highestSetBit (0#1 ++ ~~~imms) = 4) ∧
    (imms &&& 0b111000#6 = 0b110000#6 → highestSetBit (0#1 ++ ~~~imms) = 3) ∧
    (imms &&& 0b111100#6 = 0b111000#6 → highestSetBit (0#1 ++ ~~~imms) = 2) ∧
    (imms &&& 0b111110#6 = 0b111100#6 → highestSetBit (0#1 ++ ~~~imms) = 1) ∧
    (imms = 0b111110#6 → highestSetBit (0#1 ++ ~~~imms) = 0) ∧
    (imms = 0b111111#6 → highestSetBit (0#1 ++ ~~~imms) = -1) := by decide

theorem Imm13.len_of_n {m : Imm13} {n : BitVec 1} (hn : m.n = n) : m.len = highestSetBit (n ++ ~~~m.imms) := hn ▸ rfl

theorem Imm13.len_esize_of_fields {m : Imm13} {n : BitVec 1} {k : Nat} (hn : m.n = n)
    (hk : highestSetBit (n ++ ~~~m.imms) = k) : m.len = k ∧ m.esize = 2 ^ k := by
  have hlen : m.len = k := (Imm13.len_of_n hn).trans hk
  exact ⟨hlen, by rw [Imm13.esize, hlen, Int.toNat_natCast]⟩

theorem toNat_lowOnes {w k : Nat} (h : k ≤ w) : (lowOnes w k).toNat = 2 ^ k - 1 := by
  have hle : 2 ^ k ≤ 2 ^ w := Nat.pow_le_pow_right (by omega) h
  have hpos : 0 < 2 ^ k := Nat.two_pow_pos k
  rw [lowOnes, BitVec.toNat_setWidth, BitVec.toNat_allOnes, Nat.mod_eq_of_lt (by omega)]

theorem toNat_and_lowOnes {w k : Nat} (x : BitVec w) (h : k ≤ w) : (x &&& lowOnes w k).toNat = x.toNat % 2 ^ k := by
  rw [BitVec.toNat_and, toNat_lowOnes h, Nat.and_two_pow_sub_one_eq_mod]

/-- `S` is the low `len` bits of `imms`. -/
theorem Imm13.s_eq_mod (m : Imm13) : m.s = m.imms.toNat % m.esize := toNat_and_lowOnes _ m.len_toNat_le

/-- `R` is the low `len` bits of `immr`. -/
theorem Imm13.r_eq_mod (m : Imm13) : m.r = m.immr.toNat % m.esize := toNat_and_lowOnes _ m.len_toNat_le

theorem Imm13.esize_pos (m : Imm13) : 0 < m.esize := Nat.two_pow_pos _

theorem Imm13.r_lt_esize (m : Imm13) : m.r < m.esize := m.r_eq_mod ▸ Nat.mod_lt _ m.esize_pos

theorem Imm13.s_lt_esize (m : Imm13) : m.s < m.esize := m.s_eq_mod ▸ Nat.mod_lt _ m.esize_pos

/-- The second UNDEFINED exit of `DecodeBitMasks`, in terms of `S`. -/
theorem Imm13.imms_eq_levels_iff (m : Imm13) :
    m.imms &&& lowOnes 6 m.len.toNat = lowOnes 6 m.len.toNat ↔ ¬ m.s + 1 < m.esize := by
  have hs : m.s < m.esize := m.s_lt_esize
  rw [← BitVec.toNat_inj, toNat_lowOnes m.len_toNat_le]
  change m.s = m.esize - 1 ↔ _
  omega

/-- The 64-bit value of a run of `s + 1` ones in a field of `2^len` bits, rotated right by `r` and repeated (R56). -/
def runValue (len s r : Nat) : Element := replicate64 (ror (lowOnes (2 ^ len) (s + 1)) r)

/-- `DecodeBitMasks` is UNDEFINED unless `1 <= len` and `S + 1 < esize`, and otherwise gives the run of `len`, `S` and `R`. -/
theorem Imm13.imm_eq_run (m : Imm13) :
    m.imm = if 1 ≤ m.len ∧ m.s + 1 < m.esize then some (runValue m.len.toNat m.s m.r) else none := by
  rw [imm_eq]
  by_cases hlen : m.len < 1
  · rw [if_pos hlen, if_neg (by omega)]
  · rw [if_neg hlen]
    by_cases hs : m.s + 1 < m.esize
    · rw [if_neg (mt m.imms_eq_levels_iff.mp (not_not.mpr hs)), if_pos ⟨by omega, hs⟩]
      rfl
    · rw [if_pos (m.imms_eq_levels_iff.mpr hs), if_neg (fun h => hs h.2)]

theorem Imm13.imm_eq_none_iff (m : Imm13) : m.imm = none ↔ ¬ (1 ≤ m.len ∧ m.s + 1 < m.esize) := by
  rw [m.imm_eq_run, ite_eq_right_iff]
  exact forall_congr' fun _ => iff_false_intro (Option.some_ne_none _)

theorem Imm13.imm_eq_some {m : Imm13} {v : Element} (h : m.imm = some v) :
    1 ≤ m.len ∧ m.s + 1 < m.esize ∧ v = runValue m.len.toNat m.s m.r := by
  rw [m.imm_eq_run] at h
  split at h
  · next hvalid => exact ⟨hvalid.1, hvalid.2, (Option.some.inj h).symm⟩
  · cases h

/-- The mask of R59 keeps `N` and `imms` and clears `immr`. -/
theorem Imm13.bits_and_mask (m : Imm13) : m.bits &&& 0x103F#13 = m.n ++ 0#6 ++ m.imms := by
  change m.n ++ m.immr ++ m.imms &&& BitVec.allOnes 1 ++ 0#6 ++ BitVec.allOnes 6 = _
  rw [BitVec.and_append, BitVec.and_append, BitVec.and_allOnes, BitVec.and_zero, BitVec.and_allOnes]

theorem Imm13.reserved_eq (m : Imm13) : m.reserved = Imm13.reservedPatterns.contains (m.n ++ 0#6 ++ m.imms) := by
  rw [Imm13.reserved, m.bits_and_mask]

/-- The opcode table's eight patterns against the two UNDEFINED exits of `DecodeBitMasks`, over `N : imms`. -/
theorem reservedPatterns_rows : ∀ (n : BitVec 1) (imms : BitVec 6),
    Imm13.reservedPatterns.contains (n ++ 0#6 ++ imms) = true ↔
      ¬ (1 ≤ highestSetBit (n ++ ~~~imms) ∧
        (imms &&& lowOnes 6 (highestSetBit (n ++ ~~~imms)).toNat).toNat + 1 < 2 ^ (highestSetBit (n ++ ~~~imms)).toNat) := by
  decide

/-- The reserved values of the opcode table are those for which `DecodeBitMasks` is UNDEFINED (R59). -/
theorem Imm13.reserved_iff (m : Imm13) : m.reserved = true ↔ m.imm = none := by
  rw [m.reserved_eq, m.imm_eq_none_iff]
  exact reservedPatterns_rows m.n m.imms

theorem Imm13.reserved_eq_false_iff (m : Imm13) : m.reserved = false ↔ ∃ v, m.imm = some v := by
  rw [← Bool.not_eq_true, m.reserved_iff, ← ne_eq, Option.ne_none_iff_exists']

theorem Instr.wellFormed_eor (m : Imm13) (dn : Fin 32) : (Instr.eor m dn).wellFormed = true ↔ ∃ v, m.imm = some v := by
  rw [Instr.wellFormed, Bool.not_eq_true', m.reserved_eq_false_iff]

end Sys2Proof
end

section
/-! The statements on the word and its reserved values, settled. -/

namespace Sys2Proof

/-- Settles O4: the fields are read back from the encoding, and well-formed is having an immediate. -/
theorem decodeOfEncode : Obligations.DecodeOfEncode := by
  unfold Obligations.DecodeOfEncode
  rintro ⟨m, dn⟩ hwf
  obtain ⟨v, hv⟩ := (Instr.wellFormed_eor m dn).mp hwf
  refine decodeWord_ok.mpr ⟨isEorWord_encode m dn, ?_, ?_⟩
  · rw [imm13OfWord_encode, hv, Option.isSome_some]
  · rw [imm13OfWord_encode, zdnOfWord_encode]

/-- Settles O5: an accepted word is in the match, so it is the encoding of its own fields, and its immediate exists. -/
theorem encodeOfDecoded : Obligations.EncodeOfDecoded := by
  unfold Obligations.EncodeOfDecoded
  intro w i h
  obtain ⟨hmatch, himm, rfl⟩ := decodeWord_ok.mp h
  exact ⟨encode_fields_of_isEorWord hmatch, (Instr.wellFormed_eor _ _).mpr (Option.isSome_iff_exists.mp himm)⟩

/-- Settles O9. -/
theorem reservedExactlyUndefined : Obligations.ReservedExactlyUndefined := by
  unfold Obligations.ReservedExactlyUndefined
  exact Imm13.reserved_iff

/-- Settles O6: outside the match, reserved, and the rest are the decoder's three answers. -/
theorem everyWordDecodesByName : Obligations.EveryWordDecodesByName := by
  unfold Obligations.EveryWordDecodesByName
  intro w
  split_ifs with hmatch hres
  · exact decodeWord_notEor.mpr hmatch
  · exact decodeWord_reserved.mpr ⟨Bool.not_eq_false _ ▸ hmatch, (Imm13.reserved_iff _).mp hres⟩
  · have himm := (Imm13.reserved_eq_false_iff _).mp (Bool.not_eq_true _ ▸ hres)
    exact decodeWord_ok.mpr ⟨Bool.not_eq_false _ ▸ hmatch, Option.isSome_iff_exists.mpr himm, rfl⟩

/-- Settles O10: each row of the table is that row over `N : imms`. -/
theorem elementSizeTable : Obligations.ElementSizeTable := by
  unfold Obligations.ElementSizeTable
  intro m
  obtain ⟨h64, h32, h16, h8, h4, h2, h0, hneg⟩ := highestSetBit_rows m.imms
  refine ⟨fun hn => Imm13.len_esize_of_fields hn (k := 6) h64, fun hn => ⟨?_, ?_, ?_, ?_, ?_, ?_, ?_⟩⟩
  · exact fun hi => Imm13.len_esize_of_fields hn (k := 5) (h32 hi)
  · exact fun hi => Imm13.len_esize_of_fields hn (k := 4) (h16 hi)
  · exact fun hi => Imm13.len_esize_of_fields hn (k := 3) (h8 hi)
  · exact fun hi => Imm13.len_esize_of_fields hn (k := 2) (h4 hi)
  · exact fun hi => Imm13.len_esize_of_fields hn (k := 1) (h2 hi)
  · exact fun hi => (Imm13.len_of_n hn).trans (h0 hi)
  · exact fun hi => (Imm13.len_of_n hn).trans (hneg hi)

/-- Settles O13: `len`, `S` and `R`, and so the immediate, read `immr` only below the element size, and the reserved patterns do
not read it. -/
theorem highImmrBitsIgnored : Obligations.HighImmrBitsIgnored := by
  unfold Obligations.HighImmrBitsIgnored
  intro m m' hn himms himmr
  have hlen : m.len = m'.len := by rw [Imm13.len, Imm13.len, hn, himms]
  have hesize : m.esize = m'.esize := by rw [Imm13.esize, Imm13.esize, hlen]
  have hs : m.s = m'.s := by rw [Imm13.s, Imm13.s, himms, hlen]
  have hr : m.r = m'.r := congrArg BitVec.toNat himmr
  exact ⟨by rw [m.imm_eq_run, m'.imm_eq_run, hlen, hesize, hs, hr], by rw [m.reserved_eq, m'.reserved_eq, hn, himms]⟩

end Sys2Proof
end

section
/-! SUPPORT. The run of ones that an immediate is: bit `i` of it is 1 exactly when `(i + r) % 2^len <= s` (R58). What follows from
that of its rotations, its periods and its number of ones. -/

namespace Sys2Proof

/-! ### The rotated run over the natural numbers -/

section Run
variable {E s : Nat}

/-- Where `k % E ≤ s` marks a run shorter than `E - 1`, no proper shift maps the run to itself: it would take the run's last
position and the position after it, which are a 1 and a 0, to two zeros or to two ones. -/
theorem run_shift_eq_zero {p : Nat} (hs : s + 1 < E) (hp : p < E) (h : ∀ k, k % E ≤ s ↔ (k + p) % E ≤ s) : p = 0 := by
  have hlast : (s + p) % E ≤ s := (h s).mp (Nat.mod_le s E)
  have hafter : ¬ (s + 1 + p) % E ≤ s := by
    rw [← h (s + 1), Nat.mod_eq_of_lt hs]
    omega
  by_contra hp0
  rcases Nat.lt_or_ge (s + p) E with hlt | hge
  · rw [Nat.mod_eq_of_lt hlt] at hlast
    omega
  · rw [Nat.mod_eq_sub_mod (by omega), Nat.mod_eq_of_lt (by omega)] at hafter
    omega

/-- Two rotations that mark the same positions differ by a multiple of the period. -/
theorem run_rotation_dvd {a b : Nat} (hs : s + 1 < E) (hab : a ≤ b) (h : ∀ j, (j + a) % E ≤ s ↔ (j + b) % E ≤ s) :
    E ∣ b - a := by
  refine Nat.dvd_of_mod_eq_zero (run_shift_eq_zero hs (Nat.mod_lt _ (by omega)) fun k => ?_)
  have hmul : a ≤ E * a := Nat.le_mul_of_pos_left a (by omega)
  have hleft : k + (E * a - a) + a = k + E * a := by omega
  have hright : k + (E * a - a) + b = k + (b - a) + E * a := by omega
  have hj := h (k + (E * a - a))
  rwa [hleft, hright, Nat.add_mul_mod_self_left, Nat.add_mul_mod_self_left, ← Nat.add_mod_mod] at hj

/-- A run of `s + 1` ones, counted from any rotation, has `s + 1` ones in a period. -/
theorem count_run (hs : s < E) (r : Nat) : Nat.count (fun i => (i + r) % E ≤ s) E = s + 1 := by
  have hrun : Nat.count (fun i => i % E ≤ s) E = s + 1 := by
    obtain ⟨z, rfl⟩ : ∃ z, E = s + 1 + z := ⟨E - (s + 1), by omega⟩
    rw [Nat.count_add, Nat.count_of_forall, Nat.count_of_forall_not, Nat.add_zero]
    · intro k hk
      rw [Nat.mod_eq_of_lt (by omega)]
      omega
    · intro k hk
      rw [Nat.mod_eq_of_lt (by omega)]
      omega
  have hsplit := Nat.count_add (fun i => i % E ≤ s) r E
  rw [Nat.add_comm, Nat.count_add] at hsplit
  simp only [Nat.add_mod_left, hrun] at hsplit
  simp only [Nat.add_comm _ r]
  omega

/-- A predicate of period `E` holds `q` times as often in `E * q` positions as in one period. -/
theorem count_mul_of_periodic (p : Nat → Prop) [DecidablePred p] (hp : Function.Periodic p E) (q : Nat) :
    Nat.count p (E * q) = q * Nat.count p E := by
  induction q with
  | zero => simp
  | succ q ih =>
    have hnext : Nat.count (fun k => p (E + k)) (E * q) = Nat.count p (E * q) := by
      simp only [Nat.add_comm E, hp _]
    rw [Nat.mul_succ, Nat.add_comm, Nat.count_add, hnext, ih]
    ring

end Run

/-! ### The bits of a replicated rotated run -/

theorem getLsbD_ror {w r : Nat} (x : BitVec w) (hr : r < w) {i : Nat} (hi : i < w) :
    (ror x r).getLsbD i = x.getLsbD ((i + r) % w) := by
  rw [ror, BitVec.getLsbD_rotateRight, Nat.mod_eq_of_lt hr]
  by_cases h : i < w - r
  · rw [Nat.mod_eq_of_lt (by omega)]
    simp [h, Nat.add_comm]
  · rw [Nat.mod_eq_sub_mod (by omega), Nat.mod_eq_of_lt (by omega)]
    have hidx : i - (w - r) = i + r - w := by omega
    simp [h, hi, hidx]

theorem getLsbD_replicate64 {w : Nat} (x : BitVec w) (hw : w ∣ 64) {i : Nat} (hi : i < 64) :
    (replicate64 x).getLsbD i = x.getLsbD (i % w) := by
  rw [replicate64, BitVec.getLsbD_setWidth, BitVec.getLsbD_replicate, Nat.mul_div_cancel' hw]
  simp [hi]

/-- Replicating the low `w` bits of `v` gives `v` exactly when `v` has period `w`. -/
theorem replicate64_extractLsb'_eq_iff {w : Nat} (hw : w ∣ 64) (v : Element) :
    replicate64 (v.extractLsb' 0 w) = v ↔ ∀ i < 64, v.getLsbD i = v.getLsbD (i % w) := by
  have hbit : ∀ i < 64, (replicate64 (v.extractLsb' 0 w)).getLsbD i = v.getLsbD (i % w) := by
    intro i hi
    have hlt : i % w < w := Nat.mod_lt _ (Nat.pos_of_dvd_of_pos hw (by omega))
    rw [getLsbD_replicate64 _ hw hi, BitVec.getLsbD_extractLsb']
    simp [hlt]
  constructor
  · intro h i hi
    rw [← hbit i hi, h]
  · intro h
    exact BitVec.eq_of_getLsbD_eq fun i hi => (hbit i hi).trans (h i hi).symm

theorem extractLsb'_replicate64 {w : Nat} (x : BitVec w) (hw : w ∣ 64) : (replicate64 x).extractLsb' 0 w = x := by
  have hle : w ≤ 64 := Nat.le_of_dvd (by omega) hw
  apply BitVec.eq_of_getLsbD_eq
  intro i hi
  rw [BitVec.getLsbD_extractLsb', Nat.zero_add, getLsbD_replicate64 x hw (by omega), Nat.mod_eq_of_lt hi]
  simp [hi]

/-- The ranges of `len`, `S` and `R` for which the run is an immediate (R57, R58). -/
structure ValidRun (len s r : Nat) : Prop where
  len_pos : 1 ≤ len
  len_le : len ≤ 6
  s_lt : s + 1 < 2 ^ len
  r_lt : r < 2 ^ len

theorem two_pow_dvd_64 {len : Nat} (h : len ≤ 6) : 2 ^ len ∣ 64 := pow_dvd_pow 2 h

theorem getLsbD_rotated_run {len s r : Nat} (h : ValidRun len s r) {i : Nat} (hi : i < 2 ^ len) :
    (ror (lowOnes (2 ^ len) (s + 1)) r).getLsbD i = decide ((i + r) % 2 ^ len ≤ s) := by
  have hlt : (i + r) % 2 ^ len < 2 ^ len := Nat.mod_lt _ (by omega)
  rw [getLsbD_ror _ h.r_lt hi, Machine.getLsbD_lowOnes]
  simp [hlt]

theorem getLsbD_runValue {len s r : Nat} (h : ValidRun len s r) {i : Nat} (hi : i < 64) :
    (runValue len s r).getLsbD i = decide ((i + r) % 2 ^ len ≤ s) := by
  have hlt : i % 2 ^ len < 2 ^ len := Nat.mod_lt _ (Nat.two_pow_pos len)
  rw [runValue, getLsbD_replicate64 _ (two_pow_dvd_64 h.len_le) hi, getLsbD_rotated_run h hlt, Nat.mod_add_mod]

/-- An immediate is the run of a valid `len`, `S` and `R`. -/
theorem Imm13.imm_eq_some_run {m : Imm13} {v : Element} (h : m.imm = some v) :
    ValidRun m.len.toNat m.s m.r ∧ v = runValue m.len.toNat m.s m.r := by
  obtain ⟨hlen, hs, hv⟩ := Imm13.imm_eq_some h
  exact ⟨⟨by omega, m.len_toNat_le, hs, m.r_lt_esize⟩, hv⟩

/-- Bit `i` of an immediate (R58), for every `i < 64`. -/
theorem Imm13.getLsbD_imm {m : Imm13} {v : Element} (h : m.imm = some v) {i : Nat} (hi : i < 64) :
    v.getLsbD i = decide ((i + m.r) % m.esize ≤ m.s) := by
  obtain ⟨hrun, rfl⟩ := Imm13.imm_eq_some_run h
  exact getLsbD_runValue hrun hi

/-- A run that is an immediate has a 1 and a 0 within one period. -/
theorem exists_one_and_zero {len s r : Nat} (h : ValidRun len s r) :
    (∃ i < 2 ^ len, (i + r) % 2 ^ len ≤ s) ∧ ∃ i < 2 ^ len, ¬ (i + r) % 2 ^ len ≤ s := by
  have hs : s + 1 < 2 ^ len := h.s_lt
  have hcount : Nat.count (fun i => (i + r) % 2 ^ len ≤ s) (2 ^ len) = s + 1 := count_run (by omega) r
  constructor
  · exact Nat.count_ne_iff_exists.mp (by omega)
  · by_contra hall
    push Not at hall
    have := Nat.count_iff_forall.mpr hall
    omega

end Sys2Proof
end

section
/-! The statements on the bits of the immediate, settled. -/

namespace Sys2Proof

/-- Settles O11. -/
theorem immediateClosedForm : Obligations.ImmediateClosedForm := by
  unfold Obligations.ImmediateClosedForm
  intro m v hv
  obtain ⟨hrun, -⟩ := Imm13.imm_eq_some_run hv
  refine ⟨hrun.s_lt, hrun.r_lt, fun i hi => ?_⟩
  rw [Imm13.getLsbD_imm hv hi, Nat.mod_add_mod, decide_eq_true_iff]

/-- Settles O12: one period of the run holds a 1 and a 0. -/
theorem immediateNeverZeroNorOnes : Obligations.ImmediateNeverZeroNorOnes := by
  unfold Obligations.ImmediateNeverZeroNorOnes
  intro m v hv
  obtain ⟨hrun, -⟩ := Imm13.imm_eq_some_run hv
  have hsize : 2 ^ m.len.toNat ≤ 64 := Nat.le_of_dvd (by omega) (two_pow_dvd_64 hrun.len_le)
  obtain ⟨⟨i, hi, hone⟩, ⟨j, hj, hzero⟩⟩ := exists_one_and_zero hrun
  constructor
  · rintro rfl
    have hbit := (Imm13.getLsbD_imm hv (by omega : i < 64)).trans (decide_eq_true hone)
    simp at hbit
  · rintro rfl
    have hbit := (Imm13.getLsbD_imm hv (by omega : j < 64)).trans (decide_eq_false hzero)
    rw [BitVec.getLsbD_allOnes] at hbit
    exact of_decide_eq_false hbit (by omega)

end Sys2Proof
end

section
/-! SUPPORT. The canonical encoder (R67) on a run: it finds the run's own `len`, `S` and `R`, and nothing but runs have an
encoding. -/

namespace Sys2Proof

/-- The `imm13` that R67 writes for a run. -/
def Imm13.ofRun (len s r : Nat) : Imm13 :=
  { n := if len = 6 then 1#1 else 0#1, immr := BitVec.ofNat 6 r, imms := immsOf len s }

/-! ### The fields of a run's `imm13` -/

/-- `N : imms` as R67 step 4 writes them hold `len` and `S`. -/
theorem len_and_s_of_immsOf : ∀ len < 7, 1 ≤ len → ∀ s < 2 ^ len,
    highestSetBit ((if len = 6 then 1#1 else 0#1) ++ ~~~(immsOf len s)) = len ∧
    (immsOf len s &&& lowOnes 6 len).toNat = s := by decide

/-- Every `N : imms` with `1 <= len` is written so from its `len` and `S`. -/
theorem fields_eq_immsOf : ∀ (n : BitVec 1) (imms : BitVec 6), 1 ≤ highestSetBit (n ++ ~~~imms) →
    n = (if (highestSetBit (n ++ ~~~imms)).toNat = 6 then 1#1 else 0#1) ∧
    imms = immsOf (highestSetBit (n ++ ~~~imms)).toNat
      (imms &&& lowOnes 6 (highestSetBit (n ++ ~~~imms)).toNat).toNat := by decide

section OfRun
variable {len s r : Nat} (h : ValidRun len s r)
include h

theorem Imm13.len_ofRun : (Imm13.ofRun len s r).len = len := by
  obtain ⟨hpos, hle, hs, -⟩ := h
  exact (len_and_s_of_immsOf len (by omega) hpos s (by omega)).1

theorem Imm13.s_ofRun : (Imm13.ofRun len s r).s = s := by
  rw [Imm13.s, Imm13.len_ofRun h, Int.toNat_natCast]
  obtain ⟨hpos, hle, hs, -⟩ := h
  exact (len_and_s_of_immsOf len (by omega) hpos s (by omega)).2

theorem Imm13.esize_ofRun : (Imm13.ofRun len s r).esize = 2 ^ len := by
  rw [Imm13.esize, Imm13.len_ofRun h, Int.toNat_natCast]

theorem Imm13.r_ofRun : (Imm13.ofRun len s r).r = r := by
  have hle : 2 ^ len ≤ 2 ^ 6 := Nat.pow_le_pow_right (by omega) h.len_le
  have hr : r < 2 ^ len := h.r_lt
  rw [Imm13.r_eq_mod, Imm13.esize_ofRun h]
  change (BitVec.ofNat 6 r).toNat % 2 ^ len = r
  rw [BitVec.toNat_ofNat, Nat.mod_eq_of_lt (hr.trans_le hle), Nat.mod_eq_of_lt hr]

/-- `DecodeBitMasks` gives the run back. -/
theorem Imm13.imm_ofRun : (Imm13.ofRun len s r).imm = some (runValue len s r) := by
  have hpos : 1 ≤ len := h.len_pos
  rw [Imm13.imm_eq_run, Imm13.len_ofRun h, Imm13.s_ofRun h, Imm13.esize_ofRun h, Imm13.r_ofRun h, Int.toNat_natCast,
    if_pos ⟨by omega, h.s_lt⟩]

end OfRun

/-- The canonical form of an `imm13` with `1 <= len` is the `imm13` of its own run. -/
theorem Imm13.canonical_eq_ofRun {m : Imm13} (h : 1 ≤ m.len) : m.canonical = Imm13.ofRun m.len.toNat m.s m.r := by
  obtain ⟨hn, himms⟩ := fields_eq_immsOf m.n m.imms h
  have himmr : m.immr &&& lowOnes 6 m.len.toNat = BitVec.ofNat 6 m.r := by
    rw [Imm13.r, BitVec.ofNat_toNat, BitVec.setWidth_eq]
  rw [Imm13.canonical, himmr]
  exact congrArg₂ (fun n imms => Imm13.mk n (BitVec.ofNat 6 m.r) imms) hn himms

theorem Imm13.canonical_ofRun {len s r : Nat} (h : ValidRun len s r) :
    (Imm13.ofRun len s r).canonical = Imm13.ofRun len s r := by
  have hlen : (Imm13.ofRun len s r).len = len := Imm13.len_ofRun h
  have hpos : 1 ≤ len := h.len_pos
  rw [Imm13.canonical_eq_ofRun (by omega), hlen, Imm13.s_ofRun h, Imm13.r_ofRun h, Int.toNat_natCast]

/-! ### The encoder's three searches -/

/-- Step 1 of R67: the smallest period among the powers of two. -/
theorem smallestLen_eq_some_iff {v : Element} {len : Nat} :
    smallestLen v = some len ↔ replicate64 (v.extractLsb' 0 (2 ^ len)) = v ∧ (1 ≤ len ∧ len ≤ 6) ∧
      ∀ l, 1 ≤ l → l < len → replicate64 (v.extractLsb' 0 (2 ^ l)) ≠ v := by
  have hlist : [1, 2, 3, 4, 5, 6] = List.range' 1 6 := rfl
  rw [smallestLen, hlist, List.find?_range'_eq_some]
  simp [Nat.lt_succ_iff]

theorem countOnesBelow_eq_count {w : Nat} (x : BitVec w) (i : Nat) :
    countOnesBelow x i = Nat.count (fun k => x.getLsbD k = true) i := by
  induction i with
  | zero => rw [countOnesBelow, Nat.count_zero]
  | succ i ih => rw [countOnesBelow, Nat.count_succ, ih, Nat.add_comm]

/-- Steps 2 to 4 of R67, the `imm13` written being that of a run. -/
theorem encodeField_eq (len : Nat) (f : BitVec (2 ^ len)) :
    encodeField len f =
      if countOnesBelow f (2 ^ len) = 0 ∨ countOnesBelow f (2 ^ len) = 2 ^ len then none
      else ((List.range (2 ^ len)).find? fun r => ror (lowOnes (2 ^ len) (countOnesBelow f (2 ^ len))) r == f).map
        (Imm13.ofRun len (countOnesBelow f (2 ^ len) - 1)) := by
  refine if_congr Iff.rfl rfl ?_
  cases (List.range (2 ^ len)).find? fun r => ror (lowOnes (2 ^ len) (countOnesBelow f (2 ^ len))) r == f <;> rfl

/-- The encoder answers the smallest rotation of as many ones as the field holds, if that rotation makes the field. -/
theorem encodeField_eq_some_iff {len : Nat} {f : BitVec (2 ^ len)} {m : Imm13} :
    encodeField len f = some m ↔ ∃ s r, countOnesBelow f (2 ^ len) = s + 1 ∧ s + 1 < 2 ^ len ∧ r < 2 ^ len ∧
      ror (lowOnes (2 ^ len) (s + 1)) r = f ∧ (∀ j < r, ror (lowOnes (2 ^ len) (s + 1)) j ≠ f) ∧
      m = Imm13.ofRun len s r := by
  have hle : countOnesBelow f (2 ^ len) ≤ 2 ^ len := by
    rw [countOnesBelow_eq_count]
    exact Nat.count_le _
  rw [encodeField_eq]
  split_ifs with hones
  · refine ⟨fun h => (by cases h), ?_⟩
    rintro ⟨s, r, hcount, hs, -⟩
    omega
  · obtain ⟨s, hcount⟩ : ∃ s, countOnesBelow f (2 ^ len) = s + 1 := ⟨_, (Nat.sub_add_cancel (by omega)).symm⟩
    rw [hcount, Nat.add_sub_cancel, Option.map_eq_some_iff]
    simp only [List.find?_range_eq_some, List.mem_range, beq_iff_eq, Bool.not_eq_true', beq_eq_false_iff_ne]
    constructor
    · rintro ⟨r, ⟨hror, hr, hmin⟩, rfl⟩
      exact ⟨s, r, rfl, by omega, hr, hror, hmin, rfl⟩
    · rintro ⟨s', r, hs', -, hr, hror, hmin, rfl⟩
      obtain rfl : s = s' := by omega
      exact ⟨r, ⟨hror, hr, hmin⟩, rfl⟩

/-! ### The encoder on a run -/

section OnRun
variable {len s r : Nat} (h : ValidRun len s r)
include h

/-- The bits of a run's value, at every position taken modulo 64. -/
theorem getLsbD_runValue_mod (k : Nat) : (runValue len s r).getLsbD (k % 64) = decide ((k + r) % 2 ^ len ≤ s) := by
  have hk : (k % 64 + r) % 2 ^ len = (k + r) % 2 ^ len := by
    rw [← Nat.mod_add_mod, Nat.mod_mod_of_dvd _ (two_pow_dvd_64 h.len_le), Nat.mod_add_mod]
  rw [getLsbD_runValue h (Nat.mod_lt _ (by omega)), hk]

/-- The value of a run has no period below its `2^len`. -/
theorem runValue_no_smaller_period {l : Nat} (hl : l < len) :
    replicate64 ((runValue len s r).extractLsb' 0 (2 ^ l)) ≠ runValue len s r := by
  intro hperiod
  have hle : len ≤ 6 := h.len_le
  have hdvd : 2 ^ l ∣ 64 := two_pow_dvd_64 (by omega)
  have hbits := (replicate64_extractLsb'_eq_iff hdvd _).mp hperiod
  have hlt : 2 ^ l < 2 ^ len := Nat.pow_lt_pow_right (by omega) hl
  have hlow : ∀ k, (runValue len s r).getLsbD (k % 64) = (runValue len s r).getLsbD (k % 2 ^ l) := by
    intro k
    rw [hbits _ (Nat.mod_lt _ (by omega)), Nat.mod_mod_of_dvd _ hdvd]
  have hshift : ∀ k, (k + r) % 2 ^ len ≤ s ↔ (k + (r + 2 ^ l)) % 2 ^ len ≤ s := by
    intro k
    have hright : k + (r + 2 ^ l) = k + 2 ^ l + r := by omega
    rw [hright, ← decide_eq_decide, ← getLsbD_runValue_mod h, ← getLsbD_runValue_mod h, hlow, hlow, Nat.add_mod_right]
  have hdvdlen : 2 ^ len ∣ r + 2 ^ l - r := run_rotation_dvd h.s_lt (Nat.le_add_right r _) hshift
  rw [Nat.add_sub_cancel_left] at hdvdlen
  exact Nat.not_dvd_of_pos_of_lt (Nat.two_pow_pos l) hlt hdvdlen

/-- The field of a run's value is the rotated run. -/
theorem extractLsb'_runValue : (runValue len s r).extractLsb' 0 (2 ^ len) = ror (lowOnes (2 ^ len) (s + 1)) r :=
  extractLsb'_replicate64 _ (two_pow_dvd_64 h.len_le)

theorem smallestLen_runValue : smallestLen (runValue len s r) = some len := by
  refine smallestLen_eq_some_iff.mpr ⟨?_, ⟨h.len_pos, h.len_le⟩, fun l _ hl => runValue_no_smaller_period h hl⟩
  rw [extractLsb'_runValue h]
  rfl

theorem countOnesBelow_rotated_run : countOnesBelow (ror (lowOnes (2 ^ len) (s + 1)) r) (2 ^ len) = s + 1 := by
  have hs : s + 1 < 2 ^ len := h.s_lt
  have hsame : Nat.count (fun k => (ror (lowOnes (2 ^ len) (s + 1)) r).getLsbD k = true) (2 ^ len) =
      Nat.count (fun i => (i + r) % 2 ^ len ≤ s) (2 ^ len) :=
    List.countP_congr fun i hi => by simp [getLsbD_rotated_run h (List.mem_range.mp hi)]
  rw [countOnesBelow_eq_count, hsame, count_run (Nat.lt_of_succ_lt hs) r]

/-- A smaller rotation of as many ones makes another field. -/
theorem rotated_run_ne {j : Nat} (hj : j < r) :
    ror (lowOnes (2 ^ len) (s + 1)) j ≠ ror (lowOnes (2 ^ len) (s + 1)) r := by
  intro heq
  have hr : r < 2 ^ len := h.r_lt
  have hrun : ValidRun len s j := ⟨h.len_pos, h.len_le, h.s_lt, by omega⟩
  have hdvd : 2 ^ len ∣ r - j := by
    refine run_rotation_dvd h.s_lt hj.le fun k => ?_
    rw [← decide_eq_decide, ← getLsbD_runValue_mod hrun, ← getLsbD_runValue_mod h, runValue, runValue, heq]
  exact Nat.not_dvd_of_pos_of_lt (by omega) (by omega) hdvd

/-- The encoder inverts a run. -/
theorem encodeBitMask_runValue : encodeBitMask (runValue len s r) = some (Imm13.ofRun len s r) := by
  rw [encodeBitMask, smallestLen_runValue h]
  change encodeField len ((runValue len s r).extractLsb' 0 (2 ^ len)) = _
  rw [extractLsb'_runValue h]
  exact encodeField_eq_some_iff.mpr
    ⟨s, r, countOnesBelow_rotated_run h, h.s_lt, h.r_lt, rfl, fun j => rotated_run_ne h, rfl⟩

end OnRun

/-- What the encoder gives is the `imm13` of a run, and the value is that run's. -/
theorem encodeBitMask_eq_some_iff {v : Element} {m : Imm13} :
    encodeBitMask v = some m ↔ ∃ len s r, ValidRun len s r ∧ v = runValue len s r ∧ m = Imm13.ofRun len s r := by
  constructor
  · intro h
    unfold encodeBitMask at h
    split at h
    · cases h
    · next len hlen =>
      obtain ⟨hv, ⟨hpos, hle⟩, -⟩ := smallestLen_eq_some_iff.mp hlen
      obtain ⟨s, r, -, hs, hr, hror, -, rfl⟩ := encodeField_eq_some_iff.mp h
      exact ⟨len, s, r, ⟨hpos, hle, hs, hr⟩, by rw [runValue, hror, hv], rfl⟩
  · rintro ⟨len, s, r, hrun, rfl, rfl⟩
    exact encodeBitMask_runValue hrun

end Sys2Proof
end

section
/-! The statement on the canonical encoder, settled. -/

namespace Sys2Proof

/-- Settles O14: both directions go through the run of ones the immediate is. -/
theorem canonicalEncodingInverse : Obligations.CanonicalEncodingInverse := by
  unfold Obligations.CanonicalEncodingInverse
  refine ⟨fun m v hv => ?_, fun v m hm => ?_⟩
  · obtain ⟨hlen, -, -⟩ := Imm13.imm_eq_some hv
    obtain ⟨hrun, rfl⟩ := Imm13.imm_eq_some_run hv
    rw [Imm13.canonical_eq_ofRun hlen, encodeBitMask_runValue hrun]
  · obtain ⟨len, s, r, hrun, rfl, rfl⟩ := encodeBitMask_eq_some_iff.mp hm
    exact ⟨Imm13.imm_ofRun hrun, Imm13.canonical_ofRun hrun⟩

end Sys2Proof
end

section
/-! SUPPORT. The match of a word (R52), and words and their bytes (R42). -/

namespace Sys2Proof

/-- The match is a test of the fourteen fixed bits. -/
theorem isEorWord_iff_fixedBits {w : InstrWord} : isEorWord w = true ↔ w.extractLsb' 18 14 = 0b00000101010000#14 := by
  refine ⟨fixedBits_of_isEorWord, fun hfixed => ?_⟩
  have hsplit : w.extractLsb' 18 14 ++ w.extractLsb' 0 18 = w := BitVec.extractLsb'_append_extractLsb'
  have hmask : w &&& 0xFFFC0000#32 = 0x05400000#32 := by
    calc w &&& 0xFFFC0000#32
        = w.extractLsb' 18 14 ++ w.extractLsb' 0 18 &&& BitVec.allOnes 14 ++ 0#18 := by rw [hsplit]; rfl
      _ = 0b00000101010000#14 ++ 0#18 := by rw [BitVec.and_append, BitVec.and_allOnes, BitVec.and_zero, hfixed]
      _ = 0x05400000#32 := rfl
  rw [isEorWord, hmask]
  rfl

theorem toNat_append_eq {m n : Nat} (x : BitVec m) (y : BitVec n) : (x ++ y).toNat = 2 ^ n * x.toNat + y.toNat := by
  rw [BitVec.toNat_append, ← Nat.shiftLeft_add_eq_or_of_lt y.isLt, Nat.shiftLeft_eq, Nat.mul_comm]

theorem bytesOfWord_wordOfBytes (b0 b1 b2 b3 : Byte) : bytesOfWord (wordOfBytes b0 b1 b2 b3) = [b0, b1, b2, b3] := by
  have h0 : byteOfWord (b3 ++ b2 ++ b1 ++ b0) 0 = b0 := BitVec.extractLsb'_append_eq_right
  have h1 : byteOfWord (b3 ++ b2 ++ b1 ++ b0) 1 = b1 := by
    rw [byteOfWord, BitVec.extractLsb'_append_eq_of_le (by omega)]
    exact BitVec.extractLsb'_append_eq_right
  have h2 : byteOfWord (b3 ++ b2 ++ b1 ++ b0) 2 = b2 := by
    rw [byteOfWord, BitVec.extractLsb'_append_eq_of_le (by omega), BitVec.extractLsb'_append_eq_of_le (by omega)]
    exact BitVec.extractLsb'_append_eq_right
  have h3 : byteOfWord (b3 ++ b2 ++ b1 ++ b0) 3 = b3 := by
    rw [byteOfWord, BitVec.extractLsb'_append_eq_of_le (by omega), BitVec.extractLsb'_append_eq_of_le (by omega),
      BitVec.extractLsb'_append_eq_of_le (by omega)]
    exact BitVec.extractLsb'_eq_self
  rw [bytesOfWord, wordOfBytes, h0, h1, h2, h3]

/-- A word is made of its own bytes (R42). -/
theorem wordOfBytes_byteOfWord (w : InstrWord) :
    wordOfBytes (byteOfWord w 0) (byteOfWord w 1) (byteOfWord w 2) (byteOfWord w 3) = w := by
  calc w.extractLsb' 24 8 ++ w.extractLsb' 16 8 ++ w.extractLsb' 8 8 ++ w.extractLsb' 0 8
      = w.extractLsb' 16 16 ++ w.extractLsb' 8 8 ++ w.extractLsb' 0 8 :=
        congrArg (· ++ w.extractLsb' 8 8 ++ w.extractLsb' 0 8) (BitVec.extractLsb'_append_extractLsb'_eq_extractLsb' rfl)
    _ = w.extractLsb' 8 24 ++ w.extractLsb' 0 8 :=
        congrArg (· ++ w.extractLsb' 0 8) (BitVec.extractLsb'_append_extractLsb'_eq_extractLsb' rfl)
    _ = w := BitVec.extractLsb'_append_extractLsb'

/-- The decoder of bytes accepts four bytes exactly as the decoder of words accepts their word, and leaves the others. -/
theorem decodeBytes_eq_ok_iff {b0 b1 b2 b3 : Byte} {rest rest' : List Byte} {i : Instr} :
    decodeBytes (b0 :: b1 :: b2 :: b3 :: rest) = .ok (i, rest') ↔
      decodeWord (wordOfBytes b0 b1 b2 b3) = .ok i ∧ rest = rest' := by
  rw [decodeBytes]
  cases decodeWord (wordOfBytes b0 b1 b2 b3) <;> simp

end Sys2Proof
end

section
/-! The statements on words and bytes, settled. -/

namespace Sys2Proof

/-- Settles O2: the fixed bits are the quotient of the word by `2^18`. -/
theorem matchMaskAndRangeAgree : Obligations.MatchMaskAndRangeAgree := by
  unfold Obligations.MatchMaskAndRangeAgree
  intro w
  refine ⟨isEorWord_iff_fixedBits, ?_⟩
  have hw : w.toNat < 2 ^ 32 := w.isLt
  rw [isEorWord_iff_fixedBits, ← BitVec.toNat_inj, BitVec.extractLsb'_toNat, Nat.shiftRight_eq_div_pow, BitVec.toNat_ofNat]
  omega

/-- Settles O8. -/
theorem bytesAreLittleEndian : Obligations.BytesAreLittleEndian := by
  unfold Obligations.BytesAreLittleEndian
  refine ⟨fun b0 b1 b2 b3 => ⟨?_, bytesOfWord_wordOfBytes b0 b1 b2 b3⟩, fun i rest hwf => ?_⟩
  · rw [wordOfBytes, toNat_append_eq, toNat_append_eq, toNat_append_eq]
    omega
  · refine decodeBytes_eq_ok_iff.mpr ⟨?_, rfl⟩
    rw [wordOfBytes_byteOfWord]
    exact decodeOfEncode i hwf

/-- Settles O7: the words are closed terms. -/
theorem workedDecodesRead : Obligations.WorkedDecodesRead := by
  unfold Obligations.WorkedDecodesRead
  decide

end Sys2Proof
end

section
/-! SUPPORT. What a step, a transition and a run can do, said once, and the invariant that the pc stands at a word of the text or at
its end (R41, R43, R95, R106). -/

namespace Sys2Proof.Machine

/-! ### The three exits of EOR (immediate) and of a step on a fetched word -/

/-- EOR (immediate) is UNDEFINED, or traps, or completes, each under its own conditions (R76, R94). -/
theorem execEor_cases (m : Imm13) (dn : Fin 32) (s : State) :
    (execEor m dn s = .fault (.undefined (encode (.eor m dn)) s.pc) ∧ (s.cfg.haveSve = false ∨ m.imm = none)) ∨
    (execEor m dn s = .fault (.sveAccessTrap s.pc) ∧
      s.cfg.haveSve = true ∧ (∃ imm, m.imm = some imm) ∧ s.cfg.sveEnabled = false) ∨
    ∃ imm, execEor m dn s = .next (s.eorCompleted dn imm) ∧
      s.cfg.haveSve = true ∧ m.imm = some imm ∧ s.cfg.sveEnabled = true := by
  cases hs : s.cfg.haveSve with
  | false => exact .inl ⟨execEor_of_no_sve hs, .inl rfl⟩
  | true =>
    cases hm : m.imm with
    | none => exact .inl ⟨execEor_of_imm_none hm, .inr rfl⟩
    | some imm =>
      cases he : s.cfg.sveEnabled with
      | false => exact .inr (.inl ⟨execEor_traps hs he hm, rfl, ⟨imm, rfl⟩, rfl⟩)
      | true => exact .inr (.inr ⟨imm, execEor_completes hs he hm, rfl, rfl, rfl⟩)

/-- A running machine refuses a fetched word outside the match (R68). -/
theorem step_of_not_isEorWord {s : State} {w : InstrWord} (ho : s.outcome = .running) (hf : s.fetch = .word w)
    (hw : isEorWord w = false) : step s = .refused .notEorImmediate := by
  simp [step, cycle, ho, runFetched, hf, runWord, decodeWord_notEor.mpr hw]

theorem step_of_ended {s : State} (ho : s.outcome = .running) (hf : s.fetch = .ended) : step s = .refused .runEnded := by
  simp [step, cycle, ho, runFetched, hf]

theorem step_of_outside {s : State} (ho : s.outcome = .running) (hf : s.fetch = .outside) :
    step s = .refused .pcOutsideText := by
  simp [step, cycle, ho, runFetched, hf]

/-- A step on a fetched word goes on, faults, or refuses the word; it does not answer that the run has ended. -/
theorem step_of_fetched_word {s : State} {w : InstrWord} (ho : s.outcome = .running) (hf : s.fetch = .word w) :
    (∃ t, step s = .next t) ∨ (∃ f, step s = .fault f) ∨ step s = .refused .notEorImmediate := by
  cases hw : isEorWord w with
  | false => exact .inr (.inr (step_of_not_isEorWord ho hf hw))
  | true =>
    rw [step_of_isEorWord ho hf hw]
    rcases execEor_cases (imm13OfWord w) (zdnOfWord w) s with ⟨h, -⟩ | ⟨h, -⟩ | ⟨imm, h, -⟩
    · exact .inr (.inl ⟨_, h⟩)
    · exact .inr (.inl ⟨_, h⟩)
    · exact .inl ⟨_, h⟩

/-- The word placed for the host is the one the decoder of bytes reads from the table word's bytes. -/
theorem decodeWord_tableWord {nbits w : Nat} {i : Instr} (h : decodeTableWord nbits w = some i) :
    decodeWord (tableWord nbits w) = .ok i := by
  unfold decodeTableWord at h
  split at h
  · next i' rest hbytes =>
    cases h
    exact (decodeBytes_eq_ok_iff.mp hbytes).1
  · cases h

/-! ### Transitions -/

theorem advance_of_next {s t : State} (h : step s = .next t) : s.advance = t := by rw [State.advance, h, settle_next]

theorem advance_of_fault {s : State} {f : Fault} (h : step s = .fault f) : s.advance = { s with outcome := .fault f } := by
  rw [State.advance, h, settle_fault]

theorem advance_of_refused {s : State} {r : Refusal} (h : step s = .refused r) (hr : r ≠ .runEnded) :
    s.advance = { s with outcome := .refused r } := by
  rw [State.advance, h, settle_refused s r hr]

theorem advance_of_runEnded {s : State} (h : step s = .refused .runEnded) : s.advance = s := by
  rw [State.advance, h, settle_runEnded]

/-- A stopped machine stays as it is: recording its own stop again changes nothing. -/
theorem advance_of_stopped {s : State} (h : s.outcome ≠ .running) : s.advance = s := by
  cases ho : s.outcome with
  | running => exact absurd ho h
  | fault f => rw [advance_of_fault (step_of_fault ho), ← ho]
  | refused r =>
    by_cases hr : r = .runEnded
    · exact advance_of_runEnded (hr ▸ step_of_refused ho)
    · rw [advance_of_refused (step_of_refused ho) hr, ← ho]

theorem advances_of_stopped {s : State} (h : s.outcome ≠ .running) (k : Nat) : s.advances k = s := by
  induction k with
  | zero => rfl
  | succ k ih => rw [State.advances, advance_of_stopped h, ih]

/-- A fault is recorded by the next transition and ends the run (R95). -/
theorem advance_of_fault_terminal {s : State} {f : Fault} (h : step s = .fault f) :
    s.advance = { s with outcome := .fault f } ∧ s.advance.advance = s.advance := by
  have hadv : s.advance = { s with outcome := .fault f } := advance_of_fault h
  refine ⟨hadv, advance_of_stopped ?_⟩
  rw [hadv]
  nofun

/-- A completing step keeps the configuration and the text. -/
theorem step_next_config {s t : State} (h : step s = .next t) : t.cfg = s.cfg ∧ t.text = s.text := by
  obtain ⟨w, m, dn, imm, -, -, -, rfl⟩ := step_next_completed h
  exact ⟨rfl, rfl⟩

theorem advance_config (s : State) : s.advance.cfg = s.cfg ∧ s.advance.text = s.text := by
  cases h : step s with
  | next t => rw [advance_of_next h]; exact step_next_config h
  | fault f => rw [advance_of_fault h]; exact ⟨rfl, rfl⟩
  | refused r =>
    by_cases hr : r = .runEnded
    · rw [advance_of_runEnded (hr ▸ h)]; exact ⟨rfl, rfl⟩
    · rw [advance_of_refused h hr]; exact ⟨rfl, rfl⟩

theorem advances_config (s : State) (k : Nat) : (s.advances k).cfg = s.cfg ∧ (s.advances k).text = s.text := by
  induction k generalizing s with
  | zero => exact ⟨rfl, rfl⟩
  | succ k ih =>
    obtain ⟨hcfg, htext⟩ := ih s.advance
    obtain ⟨hcfg', htext'⟩ := advance_config s
    exact ⟨hcfg.trans hcfg', htext.trans htext'⟩

theorem over_iff {s : State} : s.over = true ↔ s.fetch = .ended ∨ s.outcome ≠ .running := by
  rw [State.over, State.final, Bool.or_eq_true, Bool.and_eq_true, beq_iff_eq, beq_iff_eq, bne_iff_ne]
  by_cases ho : s.outcome = .running
  · simp [ho]
  · simp [ho]

/-! ### The invariant -/

/-- The two constraints of R41, in numbers. -/
theorem wf_iff {x : ProgramText} : x.wf = true ↔ x.base.toNat % 4 = 0 ∧ x.base.toNat + 4 * x.prog.length ≤ 2 ^ 64 := by
  have hlow : x.base.extractLsb' 0 2 = 0#2 ↔ x.base.toNat % 4 = 0 := by
    rw [← BitVec.toNat_inj, BitVec.extractLsb'_toNat]
    rfl
  rw [ProgramText.wf, Bool.and_eq_true, beq_iff_eq, hlow, decide_eq_true_iff]

theorem textOffset_lt (s : State) : s.textOffset < 2 ^ 64 := BitVec.isLt _

theorem eorCompleted_textOffset (s : State) (dn : Fin 32) (imm : Element) :
    (s.eorCompleted dn imm).textOffset = (s.textOffset + 4) % 2 ^ 64 := by
  have hpc : s.pc + 4#64 - s.text.base = s.pc - s.text.base + 4#64 := by
    rw [BitVec.sub_eq_add_neg, BitVec.sub_eq_add_neg, BitVec.add_assoc, BitVec.add_assoc, BitVec.add_comm 4#64]
  change (s.pc + 4#64 - s.text.base).toNat = _
  rw [hpc, BitVec.toNat_add]
  rfl

/-- A fetched word stands before the end of the text. -/
theorem lt_length_of_fetch_word {s : State} {w : InstrWord} (h : s.fetch = .word w) :
    s.textOffset / 4 < s.text.prog.length := by
  obtain ⟨-, -, hword⟩ := fetch_word h
  exact (List.getElem?_eq_some_iff.mp hword).1

/-- Under the invariant a completing step leaves the pc 4 bytes on, or the run has ended. The other case is the text that ends at
`2^64`, where the pc wraps. -/
theorem textOffset_of_step_next {s t : State} (hin : s.inText) (h : step s = .next t) :
    t.fetch = .ended ∨ t.textOffset = s.textOffset + 4 := by
  obtain ⟨hwf, haligned, -⟩ := hin
  obtain ⟨-, hend⟩ := wf_iff.mp hwf
  obtain ⟨w, m, dn, imm, hf, -, -, rfl⟩ := step_next_completed h
  have hlt : s.textOffset / 4 < s.text.prog.length := lt_length_of_fetch_word hf
  rw [fetch_eq_ended, eorCompleted_textOffset, eorCompleted_text]
  omega

theorem inText_of_step_next {s t : State} (hin : s.inText) (h : step s = .next t) : t.inText := by
  obtain ⟨hwf, haligned, -⟩ := hin
  obtain ⟨w, m, dn, imm, hf, -, -, rfl⟩ := step_next_completed h
  have hlt : s.textOffset / 4 < s.text.prog.length := lt_length_of_fetch_word hf
  refine ⟨hwf, ?_, ?_⟩
  · rw [eorCompleted_textOffset]
    omega
  · rw [eorCompleted_textOffset, eorCompleted_text]
    omega

/-- Under the invariant the fetch finds a word before the end of the text, or the end. -/
theorem fetch_of_inText {s : State} (hin : s.inText) : s.fetch = .ended ∨ ∃ w, s.fetch = .word w := by
  obtain ⟨-, haligned, hle⟩ := hin
  have hoff : s.textOffset < 2 ^ 64 := textOffset_lt s
  by_cases hend : s.textOffset = 4 * s.text.prog.length % 2 ^ 64
  · exact .inl (fetch_eq_ended.mpr hend)
  · have hlt : s.textOffset / 4 < s.text.prog.length := by omega
    exact .inr ⟨_, fetch_eq_word hend haligned (List.getElem?_eq_getElem hlt)⟩

theorem pc_aligned_of_inText {s : State} (hin : s.inText) : s.pc.extractLsb' 0 2 = 0#2 := by
  obtain ⟨hwf, haligned, -⟩ := hin
  obtain ⟨hbase, -⟩ := wf_iff.mp hwf
  have hpc : s.pc.toNat = (s.textOffset + s.text.base.toNat) % 2 ^ 64 := by
    rw [State.textOffset, ← BitVec.toNat_add, BitVec.sub_add_cancel]
  apply BitVec.eq_of_toNat_eq
  rw [BitVec.extractLsb'_toNat, Nat.shiftRight_zero, hpc, BitVec.toNat_zero]
  omega

/-- A state under the invariant that is not over has a word left. -/
theorem fetch_word_of_not_over {s : State} (hin : s.inText) (h : ¬ s.over = true) :
    s.outcome = .running ∧ ∃ w, s.fetch = .word w := by
  rw [over_iff, not_or, not_not] at h
  exact ⟨h.2, (fetch_of_inText hin).resolve_left h.1⟩

/-- A transition on a fetched word completes, or the run is over after it. -/
theorem advance_over_or_next {s : State} {w : InstrWord} (ho : s.outcome = .running) (hf : s.fetch = .word w) :
    s.advance.over = true ∨ ∃ t, step s = .next t := by
  rcases step_of_fetched_word ho hf with hnext | ⟨f, hfault⟩ | hrefused
  · exact .inr hnext
  · exact .inl (over_iff.mpr (.inr (by rw [advance_of_fault hfault]; nofun)))
  · exact .inl (over_iff.mpr (.inr (by rw [advance_of_refused hrefused (by decide)]; nofun)))

/-- Under the invariant the run is over within the words that are left, by induction on a bound of their number. -/
theorem over_within (n : Nat) : ∀ s : State, s.inText → s.text.prog.length - s.textOffset / 4 ≤ n →
    ∃ k ≤ n, (s.advances k).over = true := by
  induction n with
  | zero =>
    intro s hin hleft
    refine ⟨0, le_rfl, ?_⟩
    by_contra hover
    obtain ⟨-, w, hf⟩ := fetch_word_of_not_over hin hover
    have hlt : s.textOffset / 4 < s.text.prog.length := lt_length_of_fetch_word hf
    omega
  | succ n ih =>
    intro s hin hleft
    by_cases hover : s.over = true
    · exact ⟨0, Nat.zero_le _, hover⟩
    · obtain ⟨ho, w, hf⟩ := fetch_word_of_not_over hin hover
      rcases advance_over_or_next ho hf with hdone | ⟨t, hstep⟩
      · exact ⟨1, by omega, hdone⟩
      · rcases textOffset_of_step_next hin hstep with hended | hoff
        · exact ⟨1, by omega, over_iff.mpr (.inl ((congrArg State.fetch (advance_of_next hstep)).trans hended))⟩
        · obtain ⟨-, htext⟩ := step_next_config hstep
          obtain ⟨k, hk, hk'⟩ := ih t (inText_of_step_next hin hstep) (by rw [htext, hoff]; omega)
          exact ⟨k + 1, by omega, by rwa [State.advances, advance_of_next hstep]⟩

end Sys2Proof.Machine
end

section
/-! The statements on steps, stops and runs, settled. -/

namespace Sys2Proof.Machine

/-- Settles O45. -/
theorem stepKeepsInText : Obligations.StepKeepsInText := by
  unfold Obligations.StepKeepsInText
  exact fun s t => inText_of_step_next

/-- Settles O46: the pc of a launch is the base, at offset 0; the empty text of reset is well placed. -/
theorem launchInText : Obligations.LaunchInText := by
  unfold Obligations.LaunchInText
  have hlaunch : ∀ (c : Config) (x : ProgramText) (z : Vector (BitVec c.vl) 32), x.wf = true →
      (State.launch c x z).inText := by
    intro c x z hwf
    have hoff : (State.launch c x z).textOffset = 0 := congrArg BitVec.toNat (BitVec.sub_self x.base)
    exact ⟨hwf, by rw [hoff], by rw [hoff]; exact Nat.zero_le _⟩
  exact ⟨hlaunch, hlaunch _ _ _ (by decide)⟩

/-- Settles O47. -/
theorem pcAlignedAndInText : Obligations.PcAlignedAndInText := by
  unfold Obligations.PcAlignedAndInText
  intro s hin
  refine ⟨pc_aligned_of_inText hin, ?_⟩
  rcases fetch_of_inText hin with hended | ⟨w, hword⟩
  · rw [hended]; nofun
  · rw [hword]; nofun

/-- Settles O48. -/
theorem runIsOverWithinText : Obligations.RunIsOverWithinText := by
  unfold Obligations.RunIsOverWithinText
  exact fun s hin => over_within _ s hin le_rfl

/-- Settles O44. -/
theorem configurationConstant : Obligations.ConfigurationConstant := by
  unfold Obligations.ConfigurationConstant
  exact ⟨fun s t => step_next_config, advances_config⟩

/-- Settles O39. -/
theorem stopsArePreciseAndTerminal : Obligations.StopsArePreciseAndTerminal := by
  unfold Obligations.StopsArePreciseAndTerminal
  exact ⟨fun s f => advance_of_fault, fun s r => advance_of_refused, fun s ho hf => advance_of_runEnded (step_of_ended ho hf),
    fun s k h => advances_of_stopped h k⟩

/-- Settles O40: the mask of the match keeps less than that of MOVPRFX, and there the two patterns differ. -/
theorem otherWordsRefused : Obligations.OtherWordsRefused := by
  unfold Obligations.OtherWordsRefused
  refine ⟨fun s w ho hf hw => ?_, fun w hw => ?_⟩
  · have hstep : step s = .refused .notEorImmediate := step_of_not_isEorWord ho hf hw
    exact ⟨hstep, rfl, advance_of_refused hstep (by decide)⟩
  · have hmov : w &&& 0xFFFFFC00#32 = 0x0420BC00#32 := beq_iff_eq.mp hw
    have hmask : w &&& 0xFFFC0000#32 = 0x04200000#32 := by
      calc w &&& 0xFFFC0000#32 = w &&& 0xFFFFFC00#32 &&& 0xFFFC0000#32 := by rw [BitVec.and_assoc]; rfl
        _ = 0x04200000#32 := by rw [hmov]; rfl
    rw [isEorWord, hmask]
    rfl

/-- Settles O35. -/
theorem undefinedWithoutSve : Obligations.UndefinedWithoutSve := by
  unfold Obligations.UndefinedWithoutSve
  intro s w ho hf hw hs
  have hstep : step s = .fault (.undefined w s.pc) := by
    rw [step_of_isEorWord ho hf hw, execEor_of_no_sve hs, encode_fields_of_isEorWord hw]
  exact ⟨hstep, advance_of_fault_terminal hstep⟩

/-- Settles O36: a reserved immediate does not exist. -/
theorem undefinedWhenReserved : Obligations.UndefinedWhenReserved := by
  unfold Obligations.UndefinedWhenReserved
  refine ⟨fun s w ho hf hw hres => ?_, fun m dn s hres => execEor_of_imm_none (m.reserved_iff.mp hres)⟩
  rw [step_of_isEorWord ho hf hw, execEor_of_imm_none ((Imm13.reserved_iff _).mp hres), encode_fields_of_isEorWord hw]

/-- Settles O37. -/
theorem sveAccessTrapWhenDisabled : Obligations.SveAccessTrapWhenDisabled := by
  unfold Obligations.SveAccessTrapWhenDisabled
  intro s w i ho hf hd hs he
  obtain ⟨hw, himm, -⟩ := decodeWord_ok.mp hd
  obtain ⟨imm, hm⟩ := Option.isSome_iff_exists.mp himm
  have hstep : step s = .fault (.sveAccessTrap s.pc) := by rw [step_of_isEorWord ho hf hw, execEor_traps hs he hm]
  exact ⟨hstep, advance_of_fault_terminal hstep⟩

/-- Settles O38: in each of the three cases the answer is one of the three, and the conditions exclude one another. -/
theorem exceptionsInOrder : Obligations.ExceptionsInOrder := by
  unfold Obligations.ExceptionsInOrder
  intro m dn s
  rw [exec_eor, m.reserved_iff, m.reserved_eq_false_iff]
  rcases execEor_cases m dn s with ⟨h, hs | hm⟩ | ⟨h, hs, ⟨imm, hm⟩, he⟩ | ⟨imm, h, hs, hm, he⟩
  · simp [h, hs]
  · simp [h, hm]
  · simp [h, hs, hm, he]
  · simp [h, hs, hm, he]

/-- Settles O18. -/
theorem stepRunsDecodedInstruction : Obligations.StepRunsDecodedInstruction := by
  unfold Obligations.StepRunsDecodedInstruction
  exact fun s w i => step_of_word

/-- Settles O19. -/
theorem stepWithoutInstruction : Obligations.StepWithoutInstruction := by
  unfold Obligations.StepWithoutInstruction
  exact fun s => ⟨step_of_ended, step_of_outside, fun f => step_of_fault, fun r => step_of_refused⟩

/-- Settles O20: the table's bytes make the placed word, which is the one the next fetch reads. -/
theorem placedWordRunsNext : Obligations.PlacedWordRunsNext := by
  unfold Obligations.PlacedWordRunsNext
  intro s nbits w i h
  exact step_of_word rfl (fetch_placeWord s (tableWord nbits w)) (decodeWord_tableWord h)

/-- Settles O21: the pc's offset is `4 * i`, and byte `j` of the word is at offset `4 * i + j`. -/
theorem fetchReadsText : Obligations.FetchReadsText := by
  unfold Obligations.FetchReadsText
  intro s i w hlen hword hpc
  have hi : i < s.text.prog.length := (List.getElem?_eq_some_iff.mp hword).1
  have hoff : ∀ j < 4, (s.pc + BitVec.ofNat 64 j - s.text.base).toNat = 4 * i + j := by
    intro j hj
    rw [hpc, BitVec.add_assoc, BitVec.add_comm, BitVec.add_sub_cancel, ← BitVec.ofNat_add, BitVec.toNat_ofNat]
    omega
  have hstart : s.textOffset = 4 * i := by
    have hzero := hoff 0 (by omega)
    rwa [BitVec.add_zero] at hzero
  have hindex : s.text.prog[s.textOffset / 4]? = some w := by rw [hstart, Nat.mul_div_cancel_left i (by omega), hword]
  refine ⟨fetch_eq_word (by omega) (by omega) hindex, fun j hj => ?_⟩
  have hdiv : (4 * i + j) / 4 = i := by omega
  have hmod : (4 * i + j) % 4 = j := by omega
  simp only [State.textByte, hoff j hj, hdiv, hmod, hword, Option.map_some]

/-- Settles O41: the instruction has no source operand besides its destination. -/
theorem movprfxThirdRequirementVacuous : Obligations.MovprfxThirdRequirementVacuous := by
  unfold Obligations.MovprfxThirdRequirementVacuous
  intro p m dn
  have hsources : (Instr.eor m dn).otherSources = [] := rfl
  refine ⟨hsources, ?_⟩
  rw [movprfxConforms, hsources]
  simp

/-- Settles O42. -/
theorem launchState : Obligations.LaunchState := by
  unfold Obligations.LaunchState
  refine ⟨fun c x z => ⟨rfl, rfl, fun n => rfl⟩, rfl, rfl, fun n => ?_⟩
  exact Vector.getElem_ofFn n.isLt

/-- Settles O43. -/
theorem registerFile : Obligations.RegisterFile := by
  unfold Obligations.RegisterFile
  exact fun s n v => ⟨readZ_writeZ_same s n v, readZ_writeZ_other s n v⟩

end Sys2Proof.Machine
end

section
/-! SUPPORT. The text of an instruction and its immediate: the periods of an immediate and the size specifier (R61, R65), and the
complement of a run, which is a run (R66, R81). -/

namespace Sys2Proof

/-- An immediate has the same bit at positions that agree modulo the element size. -/
theorem Imm13.getLsbD_imm_congr {m : Imm13} {v : Element} (h : m.imm = some v) {i j : Nat} (hi : i < 64) (hj : j < 64)
    (hij : i % m.esize = j % m.esize) : v.getLsbD i = v.getLsbD j := by
  rw [Imm13.getLsbD_imm h hi, Imm13.getLsbD_imm h hj, ← Nat.mod_add_mod i, hij, Nat.mod_add_mod]

theorem replicate64_not {w : Nat} (x : BitVec w) (hw : w ∣ 64) : replicate64 (~~~x) = ~~~replicate64 x := by
  apply BitVec.eq_of_getLsbD_eq
  intro i hi
  have hlt : i % w < w := Nat.mod_lt _ (Nat.pos_of_dvd_of_pos hw (by omega))
  rw [getLsbD_replicate64 _ hw hi, BitVec.getLsbD_not, BitVec.getLsbD_not, getLsbD_replicate64 _ hw hi]
  simp [hlt, hi]

/-- The zeros of a rotated run are a run: they start where the ones end. -/
theorem not_run_iff {E s : Nat} (hs : s + 1 < E) (k : Nat) :
    (k + (E - (s + 1))) % E ≤ E - s - 2 ↔ ¬ k % E ≤ s := by
  have hlt : k % E < E := Nat.mod_lt _ (by omega)
  rw [← Nat.mod_add_mod]
  by_cases h : k % E ≤ s
  · rw [Nat.mod_eq_of_lt (by omega)]
    omega
  · rw [Nat.mod_eq_sub_mod (by omega), Nat.mod_eq_of_lt (by omega)]
    omega

/-- The complement of a run's value is the value of a run of the same length. -/
theorem not_runValue {len s r : Nat} (h : ValidRun len s r) :
    ∃ s' r', ValidRun len s' r' ∧ ~~~runValue len s r = runValue len s' r' := by
  have hs : s + 1 < 2 ^ len := h.s_lt
  have hrun : ValidRun len (2 ^ len - s - 2) ((r + (2 ^ len - (s + 1))) % 2 ^ len) :=
    ⟨h.len_pos, h.len_le, by omega, Nat.mod_lt _ (by omega)⟩
  refine ⟨_, _, hrun, BitVec.eq_of_getLsbD_eq fun i hi => ?_⟩
  rw [BitVec.getLsbD_not, getLsbD_runValue h hi, getLsbD_runValue hrun hi, decide_eq_true hi, Bool.true_and,
    Nat.add_mod_mod, ← Nat.add_assoc, ← decide_not, decide_eq_decide]
  exact (not_run_iff hs (i + r)).symm

/-- A value has an encoding exactly when its complement has one. -/
theorem encodeBitMask_not_isSome {v : Element} (h : (encodeBitMask v).isSome = true) : (encodeBitMask (~~~v)).isSome = true := by
  obtain ⟨m, hm⟩ := Option.isSome_iff_exists.mp h
  obtain ⟨len, s, r, hrun, rfl, -⟩ := encodeBitMask_eq_some_iff.mp hm
  obtain ⟨s', r', hrun', hnot⟩ := not_runValue hrun
  rw [hnot, encodeBitMask_runValue hrun']
  rfl

end Sys2Proof

namespace Sys2Proof.Machine

theorem tbits_dvd_64 (t : SizeSpec) : t.tbits ∣ 64 := by
  cases t <;> decide

/-- The size table against the element sizes, over `N : imms`. -/
theorem sizeSpec_rows : ∀ (n : BitVec 1) (imms : BitVec 6), 1 ≤ highestSetBit (n ++ ~~~imms) →
    (sizeSpecOf ⟨n, 0#6, imms⟩).any (fun t => decide (2 ^ (highestSetBit (n ++ ~~~imms)).toNat ∣ t.tbits)) = true := by
  decide

/-- An immediate has a size specifier, of whole elements. -/
theorem sizeSpecOf_of_imm {m : Imm13} {v : Element} (h : m.imm = some v) :
    ∃ t, sizeSpecOf m = some t ∧ m.esize ∣ t.tbits := by
  obtain ⟨hlen, -, -⟩ := Imm13.imm_eq_some h
  obtain ⟨t, ht, hdvd⟩ := (Option.any_eq_true _ _).mp (sizeSpec_rows m.n m.imms hlen)
  exact ⟨t, ht, of_decide_eq_true hdvd⟩

theorem assembleEor_of_admitted {x : EorText} (h : x.admitted = true) :
    assembleEor x = (encodeBitMask x.value).map fun m => .eor m x.zd := if_pos h

/-- The constant of an admitted text is the pattern of `tbits` bits that its value repeats. -/
theorem value_of_const {x : EorText} {c : BitVec x.td.tbits} (h : x.const = c.toNat) : x.value = replicate64 c := by
  rw [EorText.value, h, BitVec.ofNat_toNat, BitVec.setWidth_eq]

theorem ofEon_admitted {x : EorText} (h : x.admitted = true) : x.ofEon.admitted = true := by
  rw [EorText.admitted, Bool.and_eq_true] at h ⊢
  exact ⟨h.1, decide_eq_true (BitVec.isLt _)⟩

/-- The `EOR` that `EON` stands for has the complement of its value (R66). -/
theorem value_ofEon (x : EorText) : x.ofEon.value = ~~~x.value := by
  rw [value_of_const (x := x.ofEon) (c := -(BitVec.ofNat x.td.tbits x.const) - 1#_) rfl]
  rw [EorText.value, ← replicate64_not _ (tbits_dvd_64 _), BitVec.not_eq_neg_add]
  rfl

theorem assembleEon_of_admitted {x : EorText} (h : x.admitted = true) :
    assembleEon x = (encodeBitMask (~~~x.value)).map fun m => .eor m x.zd := by
  rw [assembleEon, if_pos h, assembleEor_of_admitted (ofEon_admitted h), value_ofEon]
  rfl

/-- An immediate is its low `tbits` bits repeated, for a `tbits` of whole elements (R65). -/
theorem replicate64_low_of_imm {m : Imm13} {v : Element} {w : Nat} (hv : m.imm = some v) (hw : m.esize ∣ w) (h64 : w ∣ 64) :
    replicate64 (v.extractLsb' 0 w) = v := by
  refine (replicate64_extractLsb'_eq_iff h64 v).mpr fun i hi => ?_
  exact Imm13.getLsbD_imm_congr hv hi ((Nat.mod_le i w).trans_lt hi) (Nat.mod_mod_of_dvd i hw).symm

/-- The text of R65 on a register, for a size specifier and an immediate: the constant is the low `tbits` bits. -/
def EorText.ofImm (dn : Fin 32) (t : SizeSpec) (v : Element) : EorText :=
  { zd := dn, td := t, zn := dn, tn := t, const := (v.extractLsb' 0 t.tbits).toNat }

theorem disassemble_of_imm {m : Imm13} {dn : Fin 32} {t : SizeSpec} {v : Element} (ht : sizeSpecOf m = some t)
    (hv : m.imm = some v) : disassemble (.eor m dn) = some (EorText.ofImm dn t v) := by
  simp [disassemble, ht, hv, EorText.ofImm]

theorem ofImm_admitted (dn : Fin 32) (t : SizeSpec) (v : Element) : (EorText.ofImm dn t v).admitted = true := by
  have hconst : (EorText.ofImm dn t v).const < 2 ^ t.tbits := BitVec.isLt _
  rw [EorText.admitted, Bool.and_eq_true]
  exact ⟨by simp [EorText.ofImm], decide_eq_true hconst⟩

theorem value_ofImm (dn : Fin 32) (t : SizeSpec) (v : Element) :
    (EorText.ofImm dn t v).value = replicate64 (v.extractLsb' 0 t.tbits) := value_of_const rfl

end Sys2Proof.Machine
end

section
/-! The statements on the assembler's view, settled. -/

namespace Sys2Proof.Machine

/-- Settles O16: the immediate has the period of its size specifier, so its low `tbits` bits repeat to it, and the encoder gives its
canonical form. -/
theorem disassembleThenAssemble : Obligations.DisassembleThenAssemble := by
  unfold Obligations.DisassembleThenAssemble
  intro m dn hwf
  obtain ⟨v, hv⟩ := (Instr.wellFormed_eor m dn).mp hwf
  obtain ⟨t, ht, hdvd⟩ := sizeSpecOf_of_imm hv
  have hvalue : (EorText.ofImm dn t v).value = v := by
    rw [value_ofImm, replicate64_low_of_imm hv hdvd (tbits_dvd_64 t)]
  refine ⟨_, disassemble_of_imm ht hv, ht, ofImm_admitted dn t v, hv.trans (congrArg some hvalue.symm), ?_⟩
  rw [assembleEor_of_admitted (ofImm_admitted dn t v), hvalue, canonicalEncodingInverse.1 m v hv]
  rfl

/-- Settles O17: a value and its complement have encodings together, and an encoding found decodes to its value. -/
theorem eonInvertsConstant : Obligations.EonInvertsConstant := by
  unfold Obligations.EonInvertsConstant
  intro x hx
  rw [assembleEon_of_admitted hx, assembleEor_of_admitted hx]
  constructor
  · simp only [← Option.isSome_iff_exists, Option.isSome_map]
    refine ⟨fun h => ?_, encodeBitMask_not_isSome⟩
    have hnot := encodeBitMask_not_isSome h
    rwa [BitVec.not_not] at hnot
  · intro m dn h
    obtain ⟨m', hm', heq⟩ := Option.map_eq_some_iff.mp h
    obtain ⟨rfl, rfl⟩ := Instr.eor.inj heq
    exact ⟨rfl, (canonicalEncodingInverse.2 _ _ hm').1⟩

end Sys2Proof.Machine
end

section
/-! SUPPORT. The completed EOR (immediate) as a whole (R83): its register bit by bit, and one after another on one register (R78). -/

namespace Sys2Proof.Machine

/-! ### The value the operation assigns -/

/-- Bit `b` of `Replicate(imm, VL / 64)`. -/
theorem getLsbD_replicateVl (c : Config) (imm : Element) {b : Nat} (hb : b < c.vl) :
    (replicateVl c imm).getLsbD b = imm.getLsbD (b % 64) := by
  rw [replicateVl, BitVec.getLsbD_setWidth, BitVec.getLsbD_replicate, Nat.mul_comm, elements_mul]
  simp [hb]

/-- The element loop is one exclusive OR (R83). -/
theorem eorVector_eq_xor (c : Config) (operand : BitVec c.vl) (imm : Element) :
    eorVector c operand imm = operand ^^^ replicateVl c imm := by
  apply BitVec.eq_of_getLsbD_eq
  intro b hb
  rw [getLsbD_eorVector c operand imm b hb, BitVec.getLsbD_xor, getLsbD_replicateVl c imm hb]

theorem replicateVl_xor (c : Config) (a b : Element) : replicateVl c a ^^^ replicateVl c b = replicateVl c (a ^^^ b) := by
  apply BitVec.eq_of_getLsbD_eq
  intro i hi
  rw [BitVec.getLsbD_xor, getLsbD_replicateVl c _ hi, getLsbD_replicateVl c _ hi, getLsbD_replicateVl c _ hi,
    BitVec.getLsbD_xor]

theorem eorVector_eorVector (c : Config) (operand : BitVec c.vl) (a b : Element) :
    eorVector c (eorVector c operand a) b = eorVector c operand (a ^^^ b) := by
  rw [eorVector_eq_xor, eorVector_eq_xor, eorVector_eq_xor, BitVec.xor_assoc, replicateVl_xor]

theorem eorVector_zero (c : Config) (operand : BitVec c.vl) : eorVector c operand 0#64 = operand := by
  apply BitVec.eq_of_getLsbD_eq
  intro b hb
  rw [getLsbD_eorVector c operand _ b hb, BitVec.getLsbD_zero, Bool.xor_false]

/-! ### The completed state -/

section Completed
variable (s : State) (dn : Fin 32)

theorem eorCompleted_eq (imm : Element) :
    s.eorCompleted dn imm = { s with z := s.z.set dn.val (eorVector s.cfg (s.readZ dn) imm), pc := s.pc + 4#64 } := rfl

/-- Two in a row on one register are one with the exclusive OR of their immediates, but for the pc (R78). -/
theorem eorCompleted_eorCompleted (a b : Element) :
    (s.eorCompleted dn a).eorCompleted dn b = { s.eorCompleted dn (a ^^^ b) with pc := s.pc + 8#64 } := by
  have hz : ((s.eorCompleted dn a).z).set dn.val (eorVector s.cfg ((s.eorCompleted dn a).readZ dn) b) =
      s.z.set dn.val (eorVector s.cfg (s.readZ dn) (a ^^^ b)) := by
    rw [eorCompleted_readZ_same, eorVector_eorVector]
    exact Vector.set_set (xs := s.z) (eorVector s.cfg (s.readZ dn) a) dn.isLt
  have hpc : s.pc + 4#64 + 4#64 = s.pc + 8#64 := BitVec.add_assoc _ _ _
  exact congrArg₂ (fun z pc => ({ s with z := z, pc := pc } : State)) hz hpc

/-- With a zero immediate only the pc moves. -/
theorem eorCompleted_zero : s.eorCompleted dn 0#64 = { s with pc := s.pc + 4#64 } := by
  have hz : s.z.set dn.val (eorVector s.cfg (s.readZ dn) 0#64) = s.z := by
    rw [eorVector_zero]
    exact Vector.set_getElem_self _
  exact congrArg (fun z => ({ s with z := z, pc := s.pc + 4#64 } : State)) hz

/-- Bit `b` of `Z[dn]` in the completed state (R80). -/
theorem eorCompleted_zBit_same (imm : Element) {b : Nat} (hb : b < s.cfg.vl) :
    (s.eorCompleted dn imm).zBit dn b = (s.zBit dn b ^^ imm.getLsbD (b % 64)) :=
  (congrArg (BitVec.getLsbD · b) (eorCompleted_readZ_same s dn imm)).trans (getLsbD_eorVector s.cfg (s.readZ dn) imm b hb)

theorem eorCompleted_zBit_other (imm : Element) {r : Fin 32} (hr : r ≠ dn) (b : Nat) :
    (s.eorCompleted dn imm).zBit r b = s.zBit r b :=
  congrArg (BitVec.getLsbD · b) (eorCompleted_readZ_other s dn imm r hr)

end Completed

/-- A register has no bits from `VL` on. -/
theorem zBit_of_ge {s : State} {n : Fin 32} {b : Nat} (hb : s.cfg.vl ≤ b) : s.zBit n b = false := BitVec.getLsbD_of_ge _ _ hb

/-- With SVE present and enabled and an immediate, `exec` completes (R101). -/
theorem exec_completes {m : Imm13} {imm : Element} {s : State} {dn : Fin 32} (hm : m.imm = some imm) (hready : s.sveReady) :
    exec (.eor m dn) s = .next (s.eorCompleted dn imm) := execEor_completes hready.1 hready.2 hm

/-- A slice of `w` bits of `Z[dn]` in the completed state, `w` being whole elements of the immediate: the slice of the repeated
immediate is its low `w` bits (R77). -/
theorem eorCompleted_elemRead {m : Imm13} {imm : Element} (hm : m.imm = some imm) (s : State) (dn : Fin 32) {w e : Nat}
    (hw : m.esize ∣ w) (h64 : w ∣ 64) (he : e < s.cfg.vl / w) :
    elemRead ((s.eorCompleted dn imm).readZ dn) e w = elemRead (s.readZ dn) e w ^^^ imm.extractLsb' 0 w := by
  have hle : w ≤ 64 := Nat.le_of_dvd (by omega) h64
  have hend : (e + 1) * w ≤ s.cfg.vl := Nat.mul_le_of_le_div _ _ _ he
  rw [Nat.succ_mul] at hend
  apply BitVec.eq_of_getLsbD_eq
  intro i hi
  have hmod : (e * w + i) % 64 % m.esize = i % m.esize := by
    obtain ⟨q, rfl⟩ := hw
    rw [Nat.mod_mod_of_dvd _ ((Nat.dvd_mul_right _ q).trans h64), Nat.mul_left_comm, Nat.mul_add_mod]
  have himm : imm.getLsbD ((e * w + i) % 64) = imm.getLsbD i :=
    Imm13.getLsbD_imm_congr hm (Nat.mod_lt _ (by omega)) (by omega) hmod
  have hbit := eorCompleted_zBit_same s dn imm (b := e * w + i) (by omega)
  rw [himm] at hbit
  rw [getLsbD_elemRead, BitVec.getLsbD_xor, getLsbD_elemRead, BitVec.getLsbD_extractLsb', Nat.zero_add, decide_eq_true hi,
    Bool.true_and, Bool.true_and, Bool.true_and]
  exact hbit

/-! ### How many bits are flipped (R79) -/

section Flips
variable {m : Imm13} {imm : Element} (hm : m.imm = some imm) (s : State) (dn : Fin 32)

/-- The register is a whole number of elements of the immediate's size. -/
theorem esize_dvd_vl (m : Imm13) (c : Config) : m.esize ∣ c.vl :=
  (two_pow_dvd_64 m.len_toNat_le).trans ⟨c.elements, by rw [← elements_mul, Nat.mul_comm]⟩

include hm

/-- A bit is flipped where the run of ones of the immediate stands, over all `VL` bits. -/
theorem flipped_iff_run {b : Nat} (hb : b < s.cfg.vl) :
    (s.eorCompleted dn imm).zBit dn b ≠ s.zBit dn b ↔ (b + m.r) % m.esize ≤ m.s := by
  obtain ⟨hrun, rfl⟩ := Imm13.imm_eq_some_run hm
  rw [eorCompleted_zBit_same s dn _ hb, getLsbD_runValue_mod hrun]
  change (s.zBit dn b ^^ decide ((b + m.r) % m.esize ≤ m.s)) ≠ s.zBit dn b ↔ _
  cases s.zBit dn b <;> simp

theorem countP_flipped : (List.range s.cfg.vl).countP (fun b => (s.eorCompleted dn imm).zBit dn b != s.zBit dn b) =
    s.cfg.vl / m.esize * (m.s + 1) := by
  have hrun : (List.range s.cfg.vl).countP (fun b => (s.eorCompleted dn imm).zBit dn b != s.zBit dn b) =
      Nat.count (fun b => (b + m.r) % m.esize ≤ m.s) s.cfg.vl :=
    List.countP_congr fun b hb => by
      rw [bne_iff_ne, flipped_iff_run hm s dn (List.mem_range.mp hb), decide_eq_true_iff]
  have hperiodic : Function.Periodic (fun b => (b + m.r) % m.esize ≤ m.s) m.esize := by
    intro b
    dsimp only
    rw [Nat.add_right_comm, Nat.add_mod_right]
  rw [hrun, ← count_run m.s_lt_esize m.r, ← count_mul_of_periodic _ hperiodic, Nat.mul_div_cancel' (esize_dvd_vl m s.cfg)]

theorem countP_kept : (List.range s.cfg.vl).countP (fun b => (s.eorCompleted dn imm).zBit dn b == s.zBit dn b) =
    s.cfg.vl / m.esize * (m.esize - m.s - 1) := by
  have hlength := List.length_eq_countP_add_countP (fun b => (s.eorCompleted dn imm).zBit dn b != s.zBit dn b)
    (l := List.range s.cfg.vl)
  have hnot : ∀ x y : Bool, decide (¬ (x != y) = true) = (x == y) := by decide
  have hfill : s.cfg.vl / m.esize * m.esize = s.cfg.vl := Nat.div_mul_cancel (esize_dvd_vl m s.cfg)
  simp only [hnot, List.length_range, countP_flipped hm s dn] at hlength
  rw [Nat.sub_sub, Nat.mul_sub, hfill]
  omega

end Flips

/-- Agreement in the configuration and the pc gives the same fault; with `Z[dn]` too, the same register and pc. -/
theorem execEor_congr {s s' : State} (hcfg : s'.cfg = s.cfg) (hpc : s'.pc = s.pc) {m : Imm13} {dn : Fin 32}
    (hz : ∀ b, s'.zBit dn b = s.zBit dn b) :
    (∀ f, execEor m dn s = .fault f → execEor m dn s' = .fault f) ∧
    ∀ t, execEor m dn s = .next t → ∃ t', execEor m dn s' = .next t' ∧ t'.pc = t.pc ∧
      (∀ b, t'.zBit dn b = t.zBit dn b) ∧ ∀ r, r ≠ dn → ∀ b, t'.zBit r b = s'.zBit r b := by
  constructor
  · intro f hf
    rcases execEor_cases m dn s with ⟨h, hs | hm⟩ | ⟨h, hs, ⟨imm, hm⟩, he⟩ | ⟨imm, h, -⟩
    · rw [execEor_of_no_sve (hcfg ▸ hs), hpc, ← h, hf]
    · rw [execEor_of_imm_none hm, hpc, ← h, hf]
    · rw [execEor_traps (hcfg ▸ hs) (hcfg ▸ he) hm, hpc, ← h, hf]
    · rw [h] at hf
      cases hf
  · intro t ht
    obtain ⟨hs, he, imm, hm, rfl⟩ := execEor_next ht
    refine ⟨s'.eorCompleted dn imm, execEor_completes (hcfg ▸ hs) (hcfg ▸ he) hm, ?_, fun b => ?_,
      fun r hr => eorCompleted_zBit_other s' dn imm hr⟩
    · rw [eorCompleted_pc, eorCompleted_pc, hpc]
    · by_cases hb : b < s.cfg.vl
      · rw [eorCompleted_zBit_same s' dn imm (hcfg ▸ hb), eorCompleted_zBit_same s dn imm hb, hz]
      · rw [zBit_of_ge (s := s.eorCompleted dn imm) (Nat.le_of_not_lt hb),
          zBit_of_ge (s := s'.eorCompleted dn imm) (hcfg ▸ Nat.le_of_not_lt hb)]

end Sys2Proof.Machine
end

section
/-! The statements on the meaning of EOR (immediate), settled. -/

namespace Sys2Proof.Machine

/-- Settles O24: every bit below `elements * 64 = VL` is assigned. -/
theorem loopAssignsEveryBit : Obligations.LoopAssignsEveryBit := by
  unfold Obligations.LoopAssignsEveryBit
  intro c operand imm result0
  apply BitVec.eq_of_getLsbD_eq
  intro b hb
  rw [getLsbD_eorVector c operand imm b hb, getLsbD_eorLoop _ _ _ _ _ (elements_mul c).le, elements_mul, if_pos hb]

/-- Settles O25. -/
theorem eorClosedForm : Obligations.EorClosedForm := by
  unfold Obligations.EorClosedForm
  intro m dn imm s hm hready
  rw [exec_completes hm hready, eorCompleted_eq, eorVector_eq_xor]

/-- Settles O26: the one next state is the completed one. -/
theorem eorFrame : Obligations.EorFrame := by
  unfold Obligations.EorFrame
  intro m dn s t h
  obtain ⟨-, -, imm, -, rfl⟩ := execEor_next h
  exact ⟨fun r hr => eorCompleted_zBit_other s dn imm hr, rfl, rfl, fun a => rfl, rfl⟩

/-- Settles O27. -/
theorem eorLaneLocal : Obligations.EorLaneLocal := by
  unfold Obligations.EorLaneLocal
  intro m dn imm s hm hready
  exact ⟨_, exec_completes hm hready, fun b hb => eorCompleted_zBit_same s dn imm hb⟩

/-- Settles O28: each element is its old value EOR the immediate, whatever the number of elements. -/
theorem eorIndependentOfLength : Obligations.EorIndependentOfLength := by
  unfold Obligations.EorIndependentOfLength
  intro m dn imm s s' e e' hm hready hready' he he' helem
  refine ⟨_, _, exec_completes hm hready, exec_completes hm hready', ?_⟩
  rw [eorCompleted_elem_same s dn imm he, eorCompleted_elem_same s' dn imm he', helem]

/-- Settles O29: `tbits` is a multiple of the element size, so every `tbits`-wide slice of the repeated immediate is its low one. -/
theorem sizeLetterWithoutEffect : Obligations.SizeLetterWithoutEffect := by
  unfold Obligations.SizeLetterWithoutEffect
  intro m dn imm ts s hm hts hready
  obtain ⟨ts', hts', hdvd⟩ := sizeSpecOf_of_imm hm
  obtain rfl : ts' = ts := Option.some.inj (hts'.symm.trans hts)
  exact ⟨_, exec_completes hm hready, fun e he => eorCompleted_elemRead hm s dn hdvd (tbits_dvd_64 ts') he⟩

/-- Settles O30: the immediate and itself make the zero immediate. -/
theorem eorTwiceRestores : Obligations.EorTwiceRestores := by
  unfold Obligations.EorTwiceRestores
  intro m dn imm s hm hready
  refine ⟨_, exec_completes hm hready, ?_⟩
  rw [exec_completes (s := s.eorCompleted dn imm) hm hready, eorCompleted_eorCompleted, BitVec.xor_self, eorCompleted_zero]

/-- Settles O31: the exclusive OR of the immediates is commutative. -/
theorem eorCommutes : Obligations.EorCommutes := by
  unfold Obligations.EorCommutes
  intro m1 m2 dn imm1 imm2 s hm1 hm2 hready
  refine ⟨_, _, _, exec_completes hm1 hready, exec_completes (s := s.eorCompleted dn imm1) hm2 hready,
    exec_completes hm2 hready, ?_, fun e he => ?_⟩
  · rw [exec_completes (s := s.eorCompleted dn imm2) hm1 hready, eorCompleted_eorCompleted, eorCompleted_eorCompleted,
      BitVec.xor_comm]
  · rw [eorCompleted_elem_same (s.eorCompleted dn imm1) dn imm2 he, eorCompleted_elem_same s dn imm1 he, BitVec.xor_assoc]

/-- Settles O32: the run of ones, counted over all elements, and a 1 and a 0 of its first period. -/
theorem eorFlipCount : Obligations.EorFlipCount := by
  unfold Obligations.EorFlipCount
  intro m dn imm s hm hready
  obtain ⟨hrun, -⟩ := Imm13.imm_eq_some_run hm
  obtain ⟨⟨i, hi, hone⟩, ⟨j, hj, hzero⟩⟩ := exists_one_and_zero hrun
  have hsize : m.esize ≤ s.cfg.vl := Nat.le_of_dvd (by rw [Config.vl, Config.k]; omega) (esize_dvd_vl m s.cfg)
  refine ⟨_, exec_completes hm hready, ?_, ?_, ⟨i, hi.trans_le hsize, ?_⟩, ⟨j, hj.trans_le hsize, ?_⟩⟩
  · rw [countP_flipped hm s dn, Nat.mul_div_assoc _ (esize_dvd_vl m s.cfg), Nat.mul_comm]
  · rw [countP_kept hm s dn, Nat.mul_div_assoc _ (esize_dvd_vl m s.cfg), Nat.mul_comm]
  · exact (flipped_iff_run hm s dn (hi.trans_le hsize)).mpr hone
  · exact not_not.mp (mt (flipped_iff_run hm s dn (hj.trans_le hsize)).mp hzero)

/-- Settles O33: the only next state is the completed one, in which only the pc depends on the pc. -/
theorem pcAdvancesAndIsUnread : Obligations.PcAdvancesAndIsUnread := by
  unfold Obligations.PcAdvancesAndIsUnread
  rintro ⟨m, dn⟩ s t p h
  obtain ⟨hs, he, imm, hm, rfl⟩ := execEor_next h
  exact ⟨BitVec.toNat_add _ _, execEor_completes (s := { s with pc := p }) hs he hm⟩

/-- Settles O34. -/
theorem eorReadsOnlyItsRegister : Obligations.EorReadsOnlyItsRegister := by
  unfold Obligations.EorReadsOnlyItsRegister
  intro s s' hcfg hpc
  refine ⟨fun m dn hz => execEor_congr hcfg hpc hz, fun w ho ho' hf hf' hz => ?_⟩
  cases hw : isEorWord w with
  | false =>
    rw [step_of_not_isEorWord ho hf hw, step_of_not_isEorWord ho' hf' hw]
    exact ⟨fun f h => h, fun r h => h, nofun⟩
  | true =>
    rw [step_of_isEorWord ho hf hw, step_of_isEorWord ho' hf' hw]
    obtain ⟨hfault, hnext⟩ := execEor_congr (m := imm13OfWord w) hcfg hpc hz
    refine ⟨hfault, fun r h => absurd h (execEor_not_refused _ _ _ r), fun t ht => ?_⟩
    obtain ⟨t', ht', hpc', hz', -⟩ := hnext t ht
    exact ⟨t', ht', hpc', hz'⟩

end Sys2Proof.Machine
end
